-- ==== Sys2Proof/Word.lean ====
section
/-! DEFINITION. The words of the block: the input byte and the step word, with the widths the spec gives. -/

namespace Sys2Proof

/-- One input byte (R10 "byte width", R49 field `b`); bit 0 is its least significant bit (R11). -/
abbrev Byte := BitVec 8

/-- The 11-bit step word `W` of R51: bits 10 to 8 are the phase code, bits 7 to 0 the input byte. -/
abbrev StepWord := BitVec 11

/-- The byte 0xF9 that opens and closes a frame (glossary of 00_scope.md, R60, R79). -/
abbrev flagByte : Byte := 0xF9#8

end Sys2Proof
end

