-- ==== Sys2Proof/Machine/Event.lean ====
section
/-! DEFINITION. The enumerations of the block and the two event formats: what the input port takes (R49) and
what the output port gives (R50). -/

namespace Sys2Proof

/-- The direction a byte travelled, one parser bank for each (R3, R49). -/
inductive Dir where
  | rx
  | tx
deriving DecidableEq, Repr

/-- The other direction. -/
def Dir.other : Dir → Dir
  | .rx => .tx
  | .tx => .rx

/-- A stream position, the type `POS` of R10 and R49: a token that the block copies and never computes with
(assumption 3).  The number only tells two tokens apart. -/
structure Pos where
  token : Nat
deriving DecidableEq, Repr

/-- The eight phases of R17, in the source's listing order. -/
inductive Phase where
  | opening
  | addr
  | control
  | len
  | len2
  | data
  | fcs
  | close
deriving DecidableEq, Repr

/-- The seven values of `frame_type` (R19); `none` is NONE, "not yet recognized". -/
inductive FrameType where
  | sabm
  | ua
  | dm
  | disc
  | uih
  | ui
  | none
deriving DecidableEq, Repr

/-- What every rule takes beside the byte: the direction `d` and the positions `s` and `e` of its input event
(R12, R49). -/
structure Origin where
  dir : Dir
  start : Pos
  stop : Pos
deriving DecidableEq, Repr

/-- An input event (R49): kind BYTE, which alone carries a byte, or kind OTHER. -/
inductive InEvent where
  | byte (o : Origin) (b : Byte)
  | other (o : Origin)
deriving DecidableEq, Repr

/-- The kinds of output event with the fields of each (R50), in the order of their codes. -/
inductive Payload where
  | resync (byte : Byte)
  | openFlag
  | addressByte (dlc : BitVec 6)
  | controlByte (type : FrameType)
  | length (value : BitVec 15) (isPartial : Bool)
  | dataByte (dlc : BitVec 6) (value : Byte)
  | checksum (byte : Byte)
  | closeFlag
deriving DecidableEq, Repr

/-- An output event (R50): its kind and fields, the direction and positions of the byte that caused it, and its
routing key. -/
structure OutEvent where
  origin : Origin
  key : Nat
  payload : Payload
deriving DecidableEq, Repr

end Sys2Proof
end

