-- ==== Sys2Proof/Config.lean ====
section
/-! DEFINITION. The configuration register `CFG` with its reset value, and the parameters the spec leaves open:
the label function, which has no body, and the size of the sink. -/

namespace Sys2Proof

/-- The length-field mode of `CFG.len_mode` (R30). -/
inductive LenMode where
  | legacyA
  | extendedB
deriving DecidableEq, Repr

/-- The payload radix of `CFG.format` (R27); the reserved codes 5, 6 and 7 name no format (assumption 6). -/
inductive Format where
  | ascii
  | dec
  | hex
  | oct
  | bin
deriving DecidableEq, Repr

/-- The register `CFG` (R27), shared by both banks.  Its 5-bit layout is in Machine/Reset.lean. -/
structure Cfg where
  debug : Bool
  format : Format
  lenMode : LenMode
deriving DecidableEq, Repr

/-- `CFG` when the host wrote nothing during reset (R27, R34). -/
def Cfg.reset : Cfg where
  debug := false
  format := .hex
  lenMode := .extendedB

/-- `LABEL` of R91: the long and the short label of an event.  The spec gives no label text, so it has no body
(assumption 12). -/
opaque Config.label : Format → OutEvent → String × String

/-- `N_SINK_DLC` of R10 and R89: the number of DLCs the sink has channels for.  No rule of the block reads it. -/
def Config.sinkDlcs : Nat := 4

/-- The number of channels of the sink, keys 0 to 9 (R89). -/
def Config.sinkChannels : Nat := 2 + 2 * Config.sinkDlcs

end Sys2Proof
end

