-- ==== Sys2Proof/Machine/State.lean ====
section
/-! DEFINITION. The state of the block as plain data, the reasons a run can stop, and the state after reset. -/

namespace Sys2Proof.Machine

/-- One bank of parser state, the source's `FrameParserState` (R16 to R21). -/
structure Bank where
  phase : Phase
  dlc : BitVec 6
  frameType : FrameType
  remainingLength : BitVec 15
  partialLengthLow : BitVec 7
deriving DecidableEq, Repr

/-- A bank after reset (R34). -/
def Bank.reset : Bank where
  phase := .opening
  dlc := 0
  frameType := .none
  remainingLength := 0
  partialLengthLow := 0

end Sys2Proof.Machine

namespace Sys2Proof.Machine

/-- The block (R16): two banks and `CFG`; beside them the two ports as the model holds them (assumptions 1 and 2):
`input`, the events the upstream source has yet to deliver, in arrival order, and `output`, the events emitted so
far, oldest first. -/
structure State where
  rx : Bank
  tx : Bank
  cfg : Cfg
  input : List InEvent
  output : List OutEvent
deriving DecidableEq, Repr

/-- Why the machine stops with a fault.  It has no constructor: the block raises no exception, takes no trap and
records no fault (R92). -/
inductive Fault where
deriving DecidableEq, Repr

/-- Why the model gives no meaning. -/
inductive Refusal where
  /-- Raised by an arm of `exec` whose row has no meaning yet; no arm is left that raises it.  Safe. -/
  | notModelled (mnemonic : String)
  /-- Raised by the host's reset (Machine/Reset.lean) when it writes a reserved code, 5 to 7, to `CFG.format`
  (R27, R92; 93_implementation_defined.md U9).  No step raises it.  Safe. -/
  | reservedFormat (code : BitVec 3)
deriving DecidableEq, Repr

/-- What an operation answers. -/
abbrev Result := Host.Outcome State Fault Refusal

/-- The block right after reset, when the host wrote nothing to `CFG` (R34): no event has arrived and none has been
emitted. -/
def State.reset : State where
  rx := Bank.reset
  tx := Bank.reset
  cfg := Cfg.reset
  input := []
  output := []

end Sys2Proof.Machine
end

