-- ==== Sys2Proof/Machine/Operands.lean ====
section
/-! DEFINITION. The operand values of R55 that are computed from fields of a byte and of a bank, and the routing
keys of R86 and R87. -/

namespace Sys2Proof.Machine

/-- A one-byte length, 0 to 127, as a frame length (R55 "short length"). -/
def shortLength (length : BitVec 7) : BitVec 15 := length.setWidth 15

/-- A two-byte length, `high * 128 + low`, 0 to 32767: the second byte stands above the low part (R39, R55). -/
def extendedLength (high : Byte) (low : BitVec 7) : BitVec 15 := high ++ low

/-- The value of a partial Length event: the low part (R74, decision D3; the parameter PARTIAL_LENGTH_VALUE of
93_implementation_defined.md U3 at its default, assumption 9). -/
def partialLengthValue (low : BitVec 7) : BitVec 15 := low.setWidth 15

/-- `dirIndex` of R12: 0 for RX and 1 for TX (decision D7, assumption 11). -/
def dirIndex : Dir → Nat
  | .rx => 0
  | .tx => 1

/-- `KeyData` of R86: the routing key of a payload byte, not clamped to the sink's channels. -/
def dataKey (d : Dir) (dlc : BitVec 6) : Nat := (dlc.toNat + 1) * 2 + dirIndex d

/-- The routing key of an event: R86 for a DataByte, `dirIndex` for every diagnostic event (R87, decision D8,
assumption 10). -/
def keyOf (d : Dir) : Payload → Nat
  | .resync _ => dirIndex d
  | .openFlag => dirIndex d
  | .addressByte _ => dirIndex d
  | .controlByte _ => dirIndex d
  | .length _ _ => dirIndex d
  | .dataByte dlc _ => dataKey d dlc
  | .checksum _ => dirIndex d
  | .closeFlag => dirIndex d

/-- The kind code of an event (R50, decision D22); codes 8 to 15 are unused. -/
def kindCode : Payload → BitVec 4
  | .resync _ => 0
  | .openFlag => 1
  | .addressByte _ => 2
  | .controlByte _ => 3
  | .length _ _ => 4
  | .dataByte _ _ => 5
  | .checksum _ => 6
  | .closeFlag => 7

/-- The long and the short label of an emitted event (R91).  Only this reads `CFG.format` (R29). -/
def labelOf (cfg : Cfg) (ev : OutEvent) : String × String := Config.label cfg.format ev

end Sys2Proof.Machine
end

