-- ==== Sys2Proof/Syntax.lean ====
section
/-! DEFINITION. The operations of the block: one constructor for each row of the operation map (R53), with the
operands of R55.  Bits of a byte that a row ignores are operands too, so that no bit of an encoding is dropped. -/

namespace Sys2Proof

/-- One row of R53 applied to one input event.  `o` is the event's direction and positions. -/
inductive Instr where
  /-- Row 1 (R60): 0xF9 in OPEN. -/
  | openFlag (o : Origin)
  /-- Row 2 (R61): any other byte in OPEN. -/
  | openResync (o : Origin) (b : Byte)
  /-- Row 3 (R62): the address byte; `eaCr` is its two unchecked low bits. -/
  | addr (o : Origin) (dlc : BitVec 6) (eaCr : BitVec 2)
  /-- Row 4 (R64); `pf` is the ignored poll/final bit, here and in the next five rows. -/
  | ctrlSabm (o : Origin) (pf : Bool)
  /-- Row 5 (R65). -/
  | ctrlUa (o : Origin) (pf : Bool)
  /-- Row 6 (R66). -/
  | ctrlDm (o : Origin) (pf : Bool)
  /-- Row 7 (R67). -/
  | ctrlDisc (o : Origin) (pf : Bool)
  /-- Row 8 (R68). -/
  | ctrlUih (o : Origin) (pf : Bool)
  /-- Row 9 (R69). -/
  | ctrlUi (o : Origin) (pf : Bool)
  /-- Row 10 (R70): a control byte the decode table does not list. -/
  | ctrlUnrec (o : Origin) (b : Byte)
  /-- Row 11 (R72): the legacy length byte; `lsb` is its ignored bit 0. -/
  | lenA (o : Origin) (length : BitVec 7) (lsb : Bool)
  /-- Row 12 (R73): the one-byte length of the extended mode (bit 0 is 1). -/
  | lenBFinal (o : Origin) (length : BitVec 7)
  /-- Row 13 (R74): the first of two length bytes (bit 0 is 0). -/
  | lenBCont (o : Origin) (low : BitVec 7)
  /-- Row 14 (R75): the second length byte. -/
  | len2 (o : Origin) (high : Byte)
  /-- Row 15 (R76): a payload byte with more to follow. -/
  | dataMore (o : Origin) (value : Byte)
  /-- Row 16 (R77): the last payload byte. -/
  | dataLast (o : Origin) (value : Byte)
  /-- Row 17 (R78): the checksum byte. -/
  | fcs (o : Origin) (fcs : Byte)
  /-- Row 18 (R79): 0xF9 in CLOSE. -/
  | closeFlag (o : Origin)
  /-- Row 19 (R80): any other byte in CLOSE. -/
  | closeResync (o : Origin) (b : Byte)
  /-- Row 20 (R81): a byte taken in a phase that is none of the eight; no step word selects it. -/
  | badPhase (o : Origin) (b : Byte)
  /-- Row 21 (R82): an input event that is not a byte. -/
  | nonbyte (o : Origin)
deriving DecidableEq, Repr

/-- The direction and positions of the event an operation is applied to. -/
def Instr.origin : Instr → Origin
  | .openFlag o => o
  | .openResync o _ => o
  | .addr o _ _ => o
  | .ctrlSabm o _ => o
  | .ctrlUa o _ => o
  | .ctrlDm o _ => o
  | .ctrlDisc o _ => o
  | .ctrlUih o _ => o
  | .ctrlUi o _ => o
  | .ctrlUnrec o _ => o
  | .lenA o _ _ => o
  | .lenBFinal o _ => o
  | .lenBCont o _ => o
  | .len2 o _ => o
  | .dataMore o _ => o
  | .dataLast o _ => o
  | .fcs o _ => o
  | .closeFlag o => o
  | .closeResync o _ => o
  | .badPhase o _ => o
  | .nonbyte o => o

end Sys2Proof
end

