-- ==== Sys2Proof/Machine/Ops.lean ====
section
/-! DEFINITION. The primitives of R12, each written once: selecting a bank, `Emit` with its debug gate,
`ResetFields`, `EnterBody`, and `Resync`, the one recovery action, which takes the place of an exception.  There is
no return from it (R97). -/

namespace Sys2Proof.Machine

/-- The bank `ST[d]`; the direction of the input event selects it and nothing else does (R16). -/
def State.bank (s : State) : Dir → Bank
  | .rx => s.rx
  | .tx => s.tx

/-- `ST[d] <- bk`. -/
def State.setBank (d : Dir) (bk : Bank) (s : State) : State :=
  match d with
  | .rx => { s with rx := bk }
  | .tx => { s with tx := bk }

/-- Whether an event kind is of the diagnostic class; DataByte alone is not (R83). -/
def isDiagnostic : Payload → Bool
  | .resync _ => true
  | .openFlag => true
  | .addressByte _ => true
  | .controlByte _ => true
  | .length _ _ => true
  | .dataByte _ _ => false
  | .checksum _ => true
  | .closeFlag => true

/-- Whether the debug gate lets an event through (R84). -/
def passesGate (cfg : Cfg) (p : Payload) : Bool := !isDiagnostic p || cfg.debug

/-- The event completed with its direction, positions and key (R84). -/
def complete (o : Origin) (p : Payload) : OutEvent := ⟨o, keyOf o.dir p, p⟩

/-- `Emit(d, s, e, ev)` of R84: append the completed event to the output, or drop it. -/
def emit (o : Origin) (p : Payload) (s : State) : State :=
  if passesGate s.cfg p then { s with output := s.output ++ [complete o p] } else s

/-- `ResetFields` of R23: the four non-phase fields at their reset values. -/
def Bank.resetFields (bk : Bank) : Bank :=
  { bk with dlc := 0, frameType := .none, remainingLength := 0, partialLengthLow := 0 }

/-- `ST[d].phase <- p`. -/
def setPhase (d : Dir) (p : Phase) (s : State) : State :=
  s.setBank d { s.bank d with phase := p }

/-- The return of a bank to OPEN that ends a frame and a resync: `ResetFields(d)`, then `phase <- OPEN`. -/
def backToOpen (d : Dir) (s : State) : State :=
  s.setBank d { (s.bank d).resetFields with phase := .opening }

/-- `EnterBody(d, len)` of R71: store the length, then DATA, or FCS when it is 0. -/
def enterBody (d : Dir) (len : BitVec 15) (s : State) : State :=
  s.setBank d { s.bank d with remainingLength := len, phase := if len = 0 then .fcs else .data }

/-- `Resync(d, s, e, b)` of R95: report the byte, reset the fields, go to OPEN.  It saves nothing. -/
def resync (o : Origin) (b : Byte) (s : State) : State :=
  backToOpen o.dir (emit o (.resync b) s)

/-- The three causes of a resync (R93); the event does not carry its cause. -/
inductive ResyncCause where
  | rsOpen
  | rsControl
  | rsClose
deriving DecidableEq, Repr

/-- The cause under which an operation resyncs, if it does (R93). -/
def resyncCause : Instr → Option ResyncCause
  | .openFlag _ => Option.none
  | .openResync _ _ => some .rsOpen
  | .addr _ _ _ => Option.none
  | .ctrlSabm _ _ => Option.none
  | .ctrlUa _ _ => Option.none
  | .ctrlDm _ _ => Option.none
  | .ctrlDisc _ _ => Option.none
  | .ctrlUih _ _ => Option.none
  | .ctrlUi _ _ => Option.none
  | .ctrlUnrec _ _ => some .rsControl
  | .lenA _ _ _ => Option.none
  | .lenBFinal _ _ => Option.none
  | .lenBCont _ _ => Option.none
  | .len2 _ _ => Option.none
  | .dataMore _ _ => Option.none
  | .dataLast _ _ => Option.none
  | .fcs _ _ => Option.none
  | .closeFlag _ => Option.none
  | .closeResync _ _ => some .rsClose
  | .badPhase _ _ => Option.none
  | .nonbyte _ => Option.none

end Sys2Proof.Machine
end

