-- ==== Sys2Proof/Machine/Body.lean ====
section
/-! DEFINITION. Payload, checksum and closing flag, and the two rows that no byte of a phase selects: the meanings
of rows 15 to 21 (43_data_fcs_close.md). -/

namespace Sys2Proof.Machine

/-- The payload byte goes to the demultiplexer with the DLC of its frame (R76, R77). -/
def deliver (o : Origin) (value : Byte) (s : State) : State :=
  emit o (.dataByte (s.bank o.dir).dlc value) s

/-- DATA_MORE (R76).  Its guard keeps the decrement from wrapping. -/
def execDataMore (o : Origin) (value : Byte) (s : State) : Result :=
  let s₁ := deliver o value s
  .next (s₁.setBank o.dir { s₁.bank o.dir with remainingLength := (s₁.bank o.dir).remainingLength - 1 })

/-- DATA_LAST (R77).  `remaining_length` is not written. -/
def execDataLast (o : Origin) (value : Byte) (s : State) : Result :=
  .next (setPhase o.dir .fcs (deliver o value s))

/-- FCS (R78).  The checksum is reported, never checked. -/
def execFcs (o : Origin) (fcs : Byte) (s : State) : Result :=
  .next (setPhase o.dir .close (emit o (.checksum fcs) s))

/-- CLOSE_FLAG (R79). -/
def execCloseFlag (o : Origin) (s : State) : Result :=
  .next (backToOpen o.dir (emit o .closeFlag s))

/-- CLOSE_RESYNC (R80), resync cause RS_CLOSE. -/
def execCloseResync (o : Origin) (b : Byte) (s : State) : Result :=
  .next (resync o b s)

/-- BAD_PHASE (R81): back to OPEN, nothing emitted, the byte consumed. -/
def execBadPhase (o : Origin) (_b : Byte) (s : State) : Result :=
  .next (backToOpen o.dir s)

/-- NONBYTE (R82): no effect, in either direction. -/
def execNonbyte (_o : Origin) (s : State) : Result := .next s

end Sys2Proof.Machine
end

