-- ==== Sys2Proof/Machine/Control.lean ====
section
/-! DEFINITION. The control field: the meanings of rows 4 to 10 (41_control.md). -/

namespace Sys2Proof.Machine

/-- What the six recognising rows share: the type is stored and reported, and the frame goes on to LEN whatever the
type (R64 to R69). -/
def recognise (o : Origin) (t : FrameType) (s : State) : State :=
  let s₁ := s.setBank o.dir { s.bank o.dir with frameType := t }
  setPhase o.dir .len (emit o (.controlByte t) s₁)

/-- CTRL_SABM (R64).  The poll/final bit is neither stored nor reported, here and below. -/
def execCtrlSabm (o : Origin) (_pf : Bool) (s : State) : Result := .next (recognise o .sabm s)

/-- CTRL_UA (R65). -/
def execCtrlUa (o : Origin) (_pf : Bool) (s : State) : Result := .next (recognise o .ua s)

/-- CTRL_DM (R66). -/
def execCtrlDm (o : Origin) (_pf : Bool) (s : State) : Result := .next (recognise o .dm s)

/-- CTRL_DISC (R67). -/
def execCtrlDisc (o : Origin) (_pf : Bool) (s : State) : Result := .next (recognise o .disc s)

/-- CTRL_UIH (R68). -/
def execCtrlUih (o : Origin) (_pf : Bool) (s : State) : Result := .next (recognise o .uih s)

/-- CTRL_UI (R69). -/
def execCtrlUi (o : Origin) (_pf : Bool) (s : State) : Result := .next (recognise o .ui s)

/-- CTRL_UNREC (R70), resync cause RS_CONTROL. -/
def execCtrlUnrec (o : Origin) (b : Byte) (s : State) : Result := .next (resync o b s)

end Sys2Proof.Machine
end

