-- ==== Sys2Proof/Machine/Length.lean ====
section
/-! DEFINITION. The length field: the meanings of rows 11 to 14 (42_length.md). -/

namespace Sys2Proof.Machine

/-- What the rules that complete a length share: report it, then `EnterBody` (R72, R73, R75). -/
def completeLength (o : Origin) (len : BitVec 15) (s : State) : State :=
  enterBody o.dir len (emit o (.length len false) s)

/-- LEN_A (R72).  Bit 0 of the byte is ignored. -/
def execLenA (o : Origin) (length : BitVec 7) (_lsb : Bool) (s : State) : Result :=
  .next (completeLength o (shortLength length) s)

/-- LEN_B_FINAL (R73). -/
def execLenBFinal (o : Origin) (length : BitVec 7) (s : State) : Result :=
  .next (completeLength o (shortLength length) s)

/-- LEN_B_CONT (R74).  `remaining_length` is not written. -/
def execLenBCont (o : Origin) (low : BitVec 7) (s : State) : Result :=
  let s₁ := s.setBank o.dir { s.bank o.dir with partialLengthLow := low }
  .next (setPhase o.dir .len2 (emit o (.length (partialLengthValue low) true) s₁))

/-- LEN2 (R75).  It does not read `CFG.len_mode` (decision D23). -/
def execLen2 (o : Origin) (high : Byte) (s : State) : Result :=
  .next (completeLength o (extendedLength high (s.bank o.dir).partialLengthLow) s)

end Sys2Proof.Machine
end

