-- ==== Sys2Proof/Machine/OpenAddr.lean ====
section
/-! DEFINITION. Frame opening and address: the meanings of rows 1 to 3 (40_open_addr.md). -/

namespace Sys2Proof.Machine

/-- OPEN_FLAG (R60). -/
def execOpenFlag (o : Origin) (s : State) : Result :=
  .next (setPhase o.dir .addr (emit o .openFlag s))

/-- OPEN_RESYNC (R61), resync cause RS_OPEN. -/
def execOpenResync (o : Origin) (b : Byte) (s : State) : Result :=
  .next (resync o b s)

/-- ADDR (R62).  The two low bits of the byte are not looked at. -/
def execAddr (o : Origin) (dlc : BitVec 6) (_eaCr : BitVec 2) (s : State) : Result :=
  let s₁ := s.setBank o.dir { s.bank o.dir with dlc := dlc }
  .next (setPhase o.dir .control (emit o (.addressByte dlc) s₁))

end Sys2Proof.Machine
end

