-- ==== Sys2Proof/Machine/Dispatch.lean ====
section
/-! DEFINITION. One arm per row of the operation map (R53, R59). -/

namespace Sys2Proof.Machine

/-- Apply a row's rule to its event (R59). -/
def exec (i : Instr) (s : State) : Host.Outcome State Fault Refusal :=
  match i with
  | .openFlag o => Sys2Proof.Machine.execOpenFlag o s
  | .openResync o b => Sys2Proof.Machine.execOpenResync o b s
  | .addr o dlc eaCr => Sys2Proof.Machine.execAddr o dlc eaCr s
  | .ctrlSabm o pf => Sys2Proof.Machine.execCtrlSabm o pf s
  | .ctrlUa o pf => Sys2Proof.Machine.execCtrlUa o pf s
  | .ctrlDm o pf => Sys2Proof.Machine.execCtrlDm o pf s
  | .ctrlDisc o pf => Sys2Proof.Machine.execCtrlDisc o pf s
  | .ctrlUih o pf => Sys2Proof.Machine.execCtrlUih o pf s
  | .ctrlUi o pf => Sys2Proof.Machine.execCtrlUi o pf s
  | .ctrlUnrec o b => Sys2Proof.Machine.execCtrlUnrec o b s
  | .lenA o length lsb => Sys2Proof.Machine.execLenA o length lsb s
  | .lenBFinal o length => Sys2Proof.Machine.execLenBFinal o length s
  | .lenBCont o low => Sys2Proof.Machine.execLenBCont o low s
  | .len2 o high => Sys2Proof.Machine.execLen2 o high s
  | .dataMore o value => Sys2Proof.Machine.execDataMore o value s
  | .dataLast o value => Sys2Proof.Machine.execDataLast o value s
  | .fcs o b => Sys2Proof.Machine.execFcs o b s
  | .closeFlag o => Sys2Proof.Machine.execCloseFlag o s
  | .closeResync o b => Sys2Proof.Machine.execCloseResync o b s
  | .badPhase o b => Sys2Proof.Machine.execBadPhase o b s
  | .nonbyte o => Sys2Proof.Machine.execNonbyte o s

end Sys2Proof.Machine
end

