-- ==== Sys2Proof/WellFormed.lean ====
section
/-! DEFINITION. Which terms of Instr an input event can select: the bytes each row of R53 leaves to the rows
before it, and the row that no step word selects. -/

namespace Sys2Proof

/-- The control bytes that rows 4 to 9 take, with the poll/final bit cleared (R53, R63). -/
def controlPatterns : List Byte := [0x2F#8, 0x63#8, 0x0F#8, 0x43#8, 0xEF#8, 0x03#8]

/-- Whether some input event selects the operation.  OPEN_RESYNC and CLOSE_RESYNC never take the flag, CTRL_UNREC
never takes a listed control byte (R52, R53), and BAD_PHASE is selected by no step word (R56, R81). -/
def Instr.wellFormed : Instr → Bool
  | .openFlag _ => true
  | .openResync _ b => b != flagByte
  | .addr _ _ _ => true
  | .ctrlSabm _ _ => true
  | .ctrlUa _ _ => true
  | .ctrlDm _ _ => true
  | .ctrlDisc _ _ => true
  | .ctrlUih _ _ => true
  | .ctrlUi _ _ => true
  | .ctrlUnrec _ b => !controlPatterns.contains (b &&& 0xEF#8)
  | .lenA _ _ _ => true
  | .lenBFinal _ _ => true
  | .lenBCont _ _ => true
  | .len2 _ _ => true
  | .dataMore _ _ => true
  | .dataLast _ _ => true
  | .fcs _ _ => true
  | .closeFlag _ => true
  | .closeResync _ b => b != flagByte
  | .badPhase _ _ => false
  | .nonbyte _ => true

end Sys2Proof
end

