-- ==== Sys2Proof/Decode.lean ====
section
/-! DEFINITION. The codes of phases and frame types, the operand fields of a byte, the operation map of R53 and the
first-match decoder over it (R52), total on every step word; after it the encoder. -/

namespace Sys2Proof

/-! ## Codes -/

/-- The 3-bit phase codes of R17. -/
def Phase.code : Phase → BitVec 3
  | .opening => 0
  | .addr => 1
  | .control => 2
  | .len => 3
  | .len2 => 4
  | .data => 5
  | .fcs => 6
  | .close => 7

/-- The phase of a 3-bit code; all eight codes are phases (R17). -/
def Phase.ofCode (c : BitVec 3) : Phase :=
  match c.toNat with
  | 0 => .opening
  | 1 => .addr
  | 2 => .control
  | 3 => .len
  | 4 => .len2
  | 5 => .data
  | 6 => .fcs
  | _ => .close

/-- The 3-bit frame-type codes of R19; code 7 is unused. -/
def FrameType.code : FrameType → BitVec 3
  | .sabm => 0
  | .ua => 1
  | .dm => 2
  | .disc => 3
  | .uih => 4
  | .ui => 5
  | .none => 6

/-! ## The step word and the fields of a byte -/

/-- `W` of R51: the phase code in bits 10 to 8 and the byte in bits 7 to 0. -/
def stepWord (p : Phase) (b : Byte) : StepWord := p.code ++ b

/-- The byte of a step word, `W[7:0]`. -/
def wordByte (w : StepWord) : Byte := w.extractLsb' 0 8

/-- The phase of a step word, `W[10:8]`. -/
def wordPhase (w : StepWord) : Phase := Phase.ofCode (w.extractLsb' 8 3)

/-- The DLC of an address byte, bits 7 to 2, which is `b / 4` (R40, R55). -/
def dlcField (b : Byte) : BitVec 6 := b.extractLsb' 2 6

/-- The two low bits of an address byte, which encode E/A and C/R and are not checked (R40, R62). -/
def eaCrField (b : Byte) : BitVec 2 := b.extractLsb' 0 2

/-- The poll/final bit of a control byte, bit 4 (R40; 90_conflicts.md C1). -/
def pollFinal (b : Byte) : Bool := b.getLsbD 4

/-- The short length, or the low part, of a first length byte: bits 7 to 1, which is `b / 2` (R55). -/
def shortField (b : Byte) : BitVec 7 := b.extractLsb' 1 7

/-- Bit 0 of a byte: the final marker of a first length byte under EXTENDED_B (R55). -/
def finalMarker (b : Byte) : Bool := b.getLsbD 0

/-- `CtlDecode` of R63: the frame type of a control byte, whatever its bit 4; no result for UNRECOGNISED. -/
def ctlDecode (b : Byte) : Option FrameType :=
  match (b &&& 0xEF#8).toNat with
  | 0x2F => some .sabm
  | 0x63 => some .ua
  | 0x0F => some .dm
  | 0x43 => some .disc
  | 0xEF => some .uih
  | 0x03 => some .ui
  | _ => Option.none

/-! ## The operation map -/

/-- The two guards of R51: `LM`, the length mode, and `RL`, whether more than one payload byte remains. -/
structure Guards where
  lenMode : LenMode
  more : Bool
deriving DecidableEq, Repr

/-- The guard column of R53. -/
inductive RowGuard where
  | always
  | mode (m : LenMode)
  | remaining (more : Bool)
deriving DecidableEq, Repr

/-- Whether a row's guard holds. -/
def RowGuard.holds (g : Guards) : RowGuard → Bool
  | .always => true
  | .mode m => decide (g.lenMode = m)
  | .remaining more => g.more == more

/-- One row of R53: its match, mask and guard, and the operation it reads from the byte. -/
structure Row where
  pat : StepWord
  mask : StepWord
  guard : RowGuard
  build : Origin → Byte → Instr

/-- A row matches when `(W & mask) = match` and its guard holds (R52). -/
def Row.matchesWord (g : Guards) (w : StepWord) (r : Row) : Bool :=
  (w &&& r.mask) == r.pat && r.guard.holds g

/-- Rows 1 to 3 of R53: OPEN and ADDR. -/
def rowsOpenAddr : List Row :=
  [⟨0x0F9#11, 0x7FF#11, .always, fun o _ => .openFlag o⟩,
   ⟨0x000#11, 0x700#11, .always, fun o b => .openResync o b⟩,
   ⟨0x100#11, 0x700#11, .always, fun o b => .addr o (dlcField b) (eaCrField b)⟩]

/-- Rows 4 to 10 of R53: CONTROL. -/
def rowsControl : List Row :=
  [⟨0x22F#11, 0x7EF#11, .always, fun o b => .ctrlSabm o (pollFinal b)⟩,
   ⟨0x263#11, 0x7EF#11, .always, fun o b => .ctrlUa o (pollFinal b)⟩,
   ⟨0x20F#11, 0x7EF#11, .always, fun o b => .ctrlDm o (pollFinal b)⟩,
   ⟨0x243#11, 0x7EF#11, .always, fun o b => .ctrlDisc o (pollFinal b)⟩,
   ⟨0x2EF#11, 0x7EF#11, .always, fun o b => .ctrlUih o (pollFinal b)⟩,
   ⟨0x203#11, 0x7EF#11, .always, fun o b => .ctrlUi o (pollFinal b)⟩,
   ⟨0x200#11, 0x700#11, .always, fun o b => .ctrlUnrec o b⟩]

/-- Rows 11 to 14 of R53: LEN and LEN2. -/
def rowsLength : List Row :=
  [⟨0x300#11, 0x700#11, .mode .legacyA, fun o b => .lenA o (shortField b) (finalMarker b)⟩,
   ⟨0x301#11, 0x701#11, .mode .extendedB, fun o b => .lenBFinal o (shortField b)⟩,
   ⟨0x300#11, 0x701#11, .mode .extendedB, fun o b => .lenBCont o (shortField b)⟩,
   ⟨0x400#11, 0x700#11, .always, fun o b => .len2 o b⟩]

/-- Rows 15 to 19 of R53: DATA, FCS and CLOSE. -/
def rowsBody : List Row :=
  [⟨0x500#11, 0x700#11, .remaining true, fun o b => .dataMore o b⟩,
   ⟨0x500#11, 0x700#11, .remaining false, fun o b => .dataLast o b⟩,
   ⟨0x600#11, 0x700#11, .always, fun o b => .fcs o b⟩,
   ⟨0x7F9#11, 0x7FF#11, .always, fun o _ => .closeFlag o⟩,
   ⟨0x700#11, 0x700#11, .always, fun o b => .closeResync o b⟩]

/-- The rows of R53 that a step word can select, in table order. -/
def rows : List Row := rowsOpenAddr ++ rowsControl ++ rowsLength ++ rowsBody

/-- The decoder of R52: the first row, in table order, that matches.  The source's last row, "(any unrecognized
phase)", takes a word that no other row takes (R81); there is none. -/
def decodeWord (g : Guards) (o : Origin) (w : StepWord) : Instr :=
  match rows.find? (Row.matchesWord g w) with
  | some r => r.build o (wordByte w)
  | Option.none => .badPhase o (wordByte w)

/-! ## Decoding what stands at the input -/

/-- Why bits are no input of the block. -/
inductive DecodeError where
  /-- A step word has 11 bits (R51); this number has more. -/
  | wordTooWide (w : Nat)
  /-- One input event forms at most one step word (R59). -/
  | tooManyWords (n : Nat)
deriving DecidableEq, Repr

/-- The operation of one input event from the step words it forms: none for an event of kind OTHER, one for a
byte (R59). -/
def decodeWords (g : Guards) (o : Origin) : List StepWord → Except DecodeError Instr
  | [] => .ok (.nonbyte o)
  | [w] => .ok (decodeWord g o w)
  | ws => .error (.tooManyWords ws.length)

/-- The step words of `nbits` bits numbered as spec/opcode_table.json numbers them; a row without bits forms no step
word. -/
def tableWords (nbits w : Nat) : Except DecodeError (List StepWord) :=
  if nbits = 0 then .ok []
  else if w < 2 ^ 11 then .ok [BitVec.ofNat 11 w]
  else .error (.wordTooWide w)

/-- The guards after reset: LEN_MODE is EXTENDED_B and no payload byte remains (R34). -/
def resetGuards : Guards := ⟨Cfg.reset.lenMode, false⟩

/-- The event `withFetchWord` places: direction RX, both positions token 0 (assumption 16). -/
def tableOrigin : Origin := ⟨.rx, ⟨0⟩, ⟨0⟩⟩

/-- The operation the decoder reads from a word of the opcode table, under the guards that hold after reset
(assumption 16). -/
def decodeTableWord (nbits w : Nat) : Option Instr :=
  match tableWords nbits w with
  | .ok ws => (decodeWords resetGuards tableOrigin ws).toOption
  | .error _ => Option.none

/-! ## The encoder -/

/-- A control byte from its row's pattern and the poll/final bit, bit 4 (R40, R53). -/
def controlByte (pattern : Byte) (pf : Bool) : Byte := pattern ||| (if pf then 0x10#8 else 0x00#8)

/-- The phase and the byte that select the operation, where a step word does (R53, R55). -/
def encodeFields : Instr → Option (Phase × Byte)
  | .openFlag _ => some (.opening, flagByte)
  | .openResync _ b => some (.opening, b)
  | .addr _ dlc eaCr => some (.addr, dlc ++ eaCr)
  | .ctrlSabm _ pf => some (.control, controlByte 0x2F#8 pf)
  | .ctrlUa _ pf => some (.control, controlByte 0x63#8 pf)
  | .ctrlDm _ pf => some (.control, controlByte 0x0F#8 pf)
  | .ctrlDisc _ pf => some (.control, controlByte 0x43#8 pf)
  | .ctrlUih _ pf => some (.control, controlByte 0xEF#8 pf)
  | .ctrlUi _ pf => some (.control, controlByte 0x03#8 pf)
  | .ctrlUnrec _ b => some (.control, b)
  | .lenA _ length lsb => some (.len, length ++ BitVec.ofBool lsb)
  | .lenBFinal _ length => some (.len, length ++ 1#1)
  | .lenBCont _ low => some (.len, low ++ 0#1)
  | .len2 _ high => some (.len2, high)
  | .dataMore _ value => some (.data, value)
  | .dataLast _ value => some (.data, value)
  | .fcs _ b => some (.fcs, b)
  | .closeFlag _ => some (.close, flagByte)
  | .closeResync _ b => some (.close, b)
  | .badPhase _ _ => Option.none
  | .nonbyte _ => Option.none

/-- The step words of an operation: one for a byte row, none for NONBYTE, which forms no step word (R59). -/
def encode (i : Instr) : List StepWord :=
  match encodeFields i with
  | some (p, b) => [stepWord p b]
  | Option.none => []

/-- Whether the guards let the operation's row be taken (the guard column of R53). -/
def Instr.admittedBy (g : Guards) : Instr → Bool
  | .openFlag _ => true
  | .openResync _ _ => true
  | .addr _ _ _ => true
  | .ctrlSabm _ _ => true
  | .ctrlUa _ _ => true
  | .ctrlDm _ _ => true
  | .ctrlDisc _ _ => true
  | .ctrlUih _ _ => true
  | .ctrlUi _ _ => true
  | .ctrlUnrec _ _ => true
  | .lenA _ _ _ => decide (g.lenMode = .legacyA)
  | .lenBFinal _ _ => decide (g.lenMode = .extendedB)
  | .lenBCont _ _ => decide (g.lenMode = .extendedB)
  | .len2 _ _ => true
  | .dataMore _ _ => g.more
  | .dataLast _ _ => !g.more
  | .fcs _ _ => true
  | .closeFlag _ => true
  | .closeResync _ _ => true
  | .badPhase _ _ => true
  | .nonbyte _ => true

end Sys2Proof
end

