-- ==== Sys2Proof/Machine/Flags.lean ====
section
/-! DEFINITION. The block has no status flags and no condition codes (R26).  What takes their place are the two
guards of R51, computed here from the configuration and a bank. -/

namespace Sys2Proof.Machine

/-- Guard `RL` of R51: `remaining_length > 1`. -/
def Bank.moreRemains (bk : Bank) : Bool := decide (1 < bk.remainingLength.toNat)

/-- The guards a byte of direction `d` is decoded under (R51): LEN rows read `LM`, DATA rows read `RL`. -/
def State.guards (s : State) (d : Dir) : Guards := ⟨s.cfg.lenMode, (s.bank d).moreRemains⟩

end Sys2Proof.Machine
end

