-- ==== Sys2Proof/Machine/Fetch.lean ====
section
/-! DEFINITION. Taking the next input event and decoding it against the bank of its direction (R59), and placing an
event where the next step takes it. -/

namespace Sys2Proof.Machine

/-- The operation of one input event (R59): NONBYTE for kind OTHER, before a step word is formed; else the first
matching row. -/
def decodeEvent (s : State) : InEvent → Instr
  | .other o => .nonbyte o
  | .byte o b => decodeWord (s.guards o.dir) o (stepWord (s.bank o.dir).phase b)

/-- The operation of the oldest event that has not been taken, and the state with that event taken; none when no
event has arrived. -/
def fetch (s : State) : Option (Instr × State) :=
  match s.input with
  | [] => Option.none
  | ev :: rest => some (decodeEvent s ev, { s with input := rest })

/-- Place one input event before all others, such that the step words `ws` are what the next step decodes: the bank
of the event's direction is put in the phase of the word, and the event carries its byte; no word is an event of
kind OTHER. -/
def placeWords (o : Origin) (ws : List StepWord) (s : State) : State :=
  match ws with
  | [] => { s with input := .other o :: s.input }
  | w :: _ => { setPhase o.dir (wordPhase w) s with input := .byte o (wordByte w) :: s.input }

end Sys2Proof.Machine
end

