-- ==== Sys2Proof/Machine/Step.lean ====
section
/-! DEFINITION. One step of the block (R59), and where a word of the opcode table is placed for it. -/

namespace Sys2Proof.Machine

/-- One step (R42, R59): take the next input event, decode it and apply its row; with no event, do nothing and keep
the state (R99, R103). -/
def step (s : State) : Host.Outcome State Fault Refusal :=
  match fetch s with
  | Option.none => .next s
  | some (i, s') => exec i s'

/-- The state whose next step takes the operation of a word of the opcode table (assumption 16).  A number that is no
step word places nothing. -/
def State.withFetchWord (s : State) (nbits w : Nat) : State :=
  match tableWords nbits w with
  | .ok ws => placeWords tableOrigin ws s
  | .error _ => s

end Sys2Proof.Machine
end

