-- ==== Sys2Proof/Machine/Reset.lean ====
section
/-! DEFINITION. What the host does to the block (R104): writing `CFG` and asserting reset.  Also the 5-bit layout of
`CFG` (R27). -/

namespace Sys2Proof.Machine

/-- The codes of `CFG.format`, bits 3 to 1 (R27). -/
def formatCode : Format → BitVec 3
  | .ascii => 0
  | .dec => 1
  | .hex => 2
  | .oct => 3
  | .bin => 4

/-- The format of a code; none for the reserved codes 5, 6 and 7 (R27). -/
def formatOfCode (c : BitVec 3) : Option Format :=
  match c.toNat with
  | 0 => some .ascii
  | 1 => some .dec
  | 2 => some .hex
  | 3 => some .oct
  | 4 => some .bin
  | _ => Option.none

/-- The code of `CFG.len_mode`, bit 4 (R27). -/
def lenModeBit : LenMode → Bool
  | .legacyA => false
  | .extendedB => true

/-- The length mode of its bit (R27). -/
def lenModeOfBit : Bool → LenMode
  | false => .legacyA
  | true => .extendedB

/-- `CFG` as its 5 bits: `len_mode`, `format`, `debug` from the most significant bit down (R27). -/
def cfgBits (c : Cfg) : BitVec 5 :=
  BitVec.ofBool (lenModeBit c.lenMode) ++ formatCode c.format ++ BitVec.ofBool c.debug

/-- What the host writes to `CFG` while it holds reset; a field left out is left unwritten (R107). -/
structure CfgWrite where
  debug : Option Bool
  format : Option (BitVec 3)
  lenMode : Option Bool
deriving DecidableEq, Repr

/-- A write of all of `CFG`, from its 5 bits (R27). -/
def CfgWrite.ofBits (v : BitVec 5) : CfgWrite where
  debug := some (v.getLsbD 0)
  format := some (v.extractLsb' 1 3)
  lenMode := some (v.getLsbD 4)

/-- The value `CFG` takes: each field left unwritten takes its default (R107); a reserved format code is refused, by
its code (R27). -/
def CfgWrite.value (w : CfgWrite) : Except (BitVec 3) Cfg :=
  let debug := (w.debug).getD Cfg.reset.debug
  let lenMode := (w.lenMode.map lenModeOfBit).getD Cfg.reset.lenMode
  match w.format with
  | Option.none => .ok ⟨debug, Cfg.reset.format, lenMode⟩
  | some c =>
    match formatOfCode c with
    | some f => .ok ⟨debug, f, lenMode⟩
    | Option.none => .error c

/-- Reset by the host (R105, R106): both banks return to OPEN with reset fields, `CFG` takes what the host wrote, and
nothing is emitted.  It falls between two steps and may come at any time (decision D16, assumption 5); a reserved
format code is refused (R27). -/
def hostReset (w : CfgWrite) (s : State) : Result :=
  match w.value with
  | .ok cfg => .next { backToOpen .tx (backToOpen .rx s) with cfg := cfg }
  | .error c => .refused (.reservedFormat c)

end Sys2Proof.Machine
end

