-- ==== Sys2Proof/Safety.lean ====
section
/-! DEFINITION. The terms the claims are stated in: runs, what a rule does to the machine, the reachable-state
invariants of R35 and R22, what a well-formed output event is, and the streams a claim compares. -/

namespace Sys2Proof

open Sys2Proof.Machine

/-! ## Terms about events and phases -/

/-- The direction of an input event. -/
def InEvent.dir : InEvent → Dir
  | .byte o _ => o.dir
  | .other o => o.dir

/-- Whether an event is a byte of direction `d`. -/
def InEvent.isByteOf (d : Dir) : InEvent → Bool
  | .byte o _ => decide (o.dir = d)
  | .other _ => false

/-- The byte events of direction `d`, in arrival order. -/
def bytesOf (d : Dir) (evs : List InEvent) : List InEvent := evs.filter (InEvent.isByteOf d)

/-- The output events of direction `d`, in order. -/
def outputsOf (d : Dir) (evs : List OutEvent) : List OutEvent := evs.filter (fun ev => decide (ev.origin.dir = d))

/-- Whether an event is of the data class (R83). -/
def OutEvent.isData (ev : OutEvent) : Bool := !isDiagnostic ev.payload

/-- The byte events that carry the bytes `bs` in order, each with the origin at its place in `os`. -/
def byteEvents (os : List Origin) (bs : List Byte) : List InEvent := List.zipWith InEvent.byte os bs

/-- The phases in which the frame type of the current frame is known (R35 item 3). -/
def Phase.typed : Phase → Bool
  | .opening => false
  | .addr => false
  | .control => false
  | .len => true
  | .len2 => true
  | .data => true
  | .fcs => true
  | .close => true

/-- The edges of the phase graph of R54 under a length mode. -/
def Phase.edge (m : LenMode) : Phase → Phase → Bool
  | .opening, q => q == .addr || q == .opening
  | .addr, q => q == .control
  | .control, q => q == .len || q == .opening
  | .len, q => q == .fcs || q == .data || (q == .len2 && m == .extendedB)
  | .len2, q => q == .fcs || q == .data
  | .data, q => q == .data || q == .fcs
  | .fcs, q => q == .close
  | .close, q => q == .opening

/-- An output event as R50, R84, R86 and R87 give it, under a configuration: it carries its key; a ControlByte names
a recognised type; a one-byte or partial length is at most 127; and a diagnostic event needs `debug`. -/
def OutEvent.wellFormed (cfg : Cfg) (ev : OutEvent) : Prop :=
  (isDiagnostic ev.payload = true → cfg.debug = true) ∧
  match ev.payload with
  | .dataByte dlc _ => ev.key = (dlc.toNat + 1) * 2 + dirIndex ev.origin.dir
  | .controlByte t => t ≠ .none ∧ ev.key = dirIndex ev.origin.dir
  | .length v isPartial => (isPartial = true → v.toNat ≤ 127) ∧ ev.key = dirIndex ev.origin.dir
  | _ => ev.key = dirIndex ev.origin.dir

/-- Rename the positions of an origin. -/
def Origin.rename (f : Pos → Pos) (o : Origin) : Origin := ⟨o.dir, f o.start, f o.stop⟩

/-- Rename the positions of an input event. -/
def InEvent.rename (f : Pos → Pos) : InEvent → InEvent
  | .byte o b => .byte (o.rename f) b
  | .other o => .other (o.rename f)

end Sys2Proof

namespace Sys2Proof.Machine

/-! ## Runs -/

/-- `k` steps of the block, from a state whose `input` holds the events to come. -/
def runSteps : Nat → State → Result
  | 0, s => .next s
  | k + 1, s =>
    match step s with
    | .next t => runSteps k t
    | .fault r => .fault r
    | .refused r => .refused r

/-- The values of the DataByte events with routing key `k`, in order: the payload stream of R90. -/
def payloadStream (k : Nat) : List OutEvent → List Byte
  | [] => []
  | ⟨_, key, .dataByte _ v⟩ :: rest => if key = k then v :: payloadStream k rest else payloadStream k rest
  | ⟨_, _, _⟩ :: rest => payloadStream k rest

/-! ## What one rule does -/

/-- The events a rule offers when its event is diagnostic and the debug gate decides (R84). -/
def ifDebug (cfg : Cfg) (p : Payload) : List Payload := if cfg.debug then [p] else []

/-- From `s` to `t`, for an event of origin `o`: the bank of its direction becomes `bk`, the output gains exactly one
event for each of `ps`, in order, with that origin, and nothing else changes: neither the other bank, nor `CFG`, nor
the events to come, nor the events emitted before.  The routing keys are stated apart (R86, R87). -/
def Does (o : Origin) (bk : Bank) (ps : List Payload) (s t : State) : Prop :=
  t.bank o.dir = bk ∧ t.bank o.dir.other = s.bank o.dir.other ∧ t.cfg = s.cfg ∧ t.input = s.input ∧
  ∃ evs, t.output = s.output ++ evs ∧ evs.map (fun ev => (ev.origin, ev.payload)) = ps.map (fun p => (o, p))

/-- A bank after `ResetFields` and the return to OPEN, with the values of R23. -/
def openBank : Bank := ⟨.opening, 0, .none, 0, 0⟩

/-- When the byte `b` of origin `o` stands at the input of `s`, the step of `s` applies the operation `i` to `s` with
that event taken. -/
def Selects (o : Origin) (b : Byte) (i : Instr) (s : State) : Prop :=
  ∀ rest, s.input = .byte o b :: rest → step s = exec i { s with input := rest }

/-- The rule of a CONTROL row that recognises the type `ft` from the bytes `lo` and `hi` (R64 to R69): in CONTROL the
two bytes select the row, and the row stores the type, reports it and goes on to LEN. -/
def ControlRowRule (row : Origin → Bool → Instr) (lo hi : Byte) (ft : FrameType) : Prop :=
  (∀ o s b, (s.bank o.dir).phase = .control → b = lo ∨ b = hi → ∃ pf, Selects o b (row o pf) s) ∧
  ∀ o pf s, ∃ t, exec (row o pf) s = .next t ∧
    Does o { s.bank o.dir with frameType := ft, phase := .len } (ifDebug s.cfg (.controlByte ft)) s t

/-! ## Whole frames -/

/-- The bytes of a frame with a one-byte length field of `2 * N + 1` (R57; 95_test_vectors.md S5). -/
def shortFrame (a c : Byte) (payload : List Byte) (fcs : Byte) : List Byte :=
  [flagByte, a, c, BitVec.ofNat 8 (2 * payload.length + 1)] ++ payload ++ [fcs, flagByte]

/-- The bytes of a frame with a two-byte length field, low part first (R39, R57). -/
def longFrame (a c : Byte) (payload : List Byte) (fcs : Byte) : List Byte :=
  [flagByte, a, c, BitVec.ofNat 8 (2 * (payload.length % 128)), BitVec.ofNat 8 (payload.length / 128)] ++
    payload ++ [fcs, flagByte]

/-- What a frame with a one-byte length reports, one event a byte (95_test_vectors.md S5). -/
def shortFrameReports (a : Byte) (ft : FrameType) (payload : List Byte) (fcs : Byte) : List Payload :=
  let dlc := BitVec.ofNat 6 (a.toNat / 4)
  [.openFlag, .addressByte dlc, .controlByte ft, .length (BitVec.ofNat 15 payload.length) false] ++
    payload.map (.dataByte dlc) ++ [.checksum fcs, .closeFlag]

/-- What a frame with a two-byte length reports, the partial Length event with the value `low`. -/
def longFrameReports (a : Byte) (ft : FrameType) (payload : List Byte) (fcs : Byte) (low : BitVec 15) : List Payload :=
  let dlc := BitVec.ofNat 6 (a.toNat / 4)
  [.openFlag, .addressByte dlc, .controlByte ft, .length low true, .length (BitVec.ofNat 15 payload.length) false] ++
    payload.map (.dataByte dlc) ++ [.checksum fcs, .closeFlag]

/-- The events of `ps`, each with the origin at its place in `os` and its routing key, that pass the debug gate. -/
def emittedFor (cfg : Cfg) (os : List Origin) (ps : List Payload) : List OutEvent :=
  (List.zipWith complete os ps).filter (fun ev => passesGate cfg ev.payload)

/-! ## Invariants -/

/-- R35 items 1 to 5 and the table of R22, for one bank under a length mode.  Item 7 is in the types of the fields. -/
structure Bank.Inv (m : LenMode) (bk : Bank) : Prop where
  /-- R35 item 1: DATA has a payload byte to come, at most 127 of them under LEGACY_A. -/
  data_pending : bk.phase = .data → 1 ≤ bk.remainingLength.toNat
  data_legacy : bk.phase = .data → m = .legacyA → bk.remainingLength.toNat ≤ 127
  /-- R35 item 2. -/
  len2_extended : bk.phase = .len2 → m = .extendedB
  /-- R35 item 3. -/
  typed_iff : bk.phase.typed = true ↔ bk.frameType ≠ .none
  /-- R35 item 4. -/
  dlc_reset : bk.phase = .opening ∨ bk.phase = .addr → bk.dlc = 0
  /-- R35 item 5 and R22: `remaining_length` holds its reset value until the length is known. -/
  remaining_reset : bk.phase ≠ .data → bk.phase ≠ .fcs → bk.phase ≠ .close → bk.remainingLength = 0
  /-- R22: after the payload, `remaining_length` is 1, or 0 if the payload was empty. -/
  remaining_done : bk.phase = .fcs ∨ bk.phase = .close → bk.remainingLength.toNat ≤ 1
  /-- R35 item 5 and R22: `partial_length_low` holds its reset value up to LEN. -/
  low_reset : bk.phase = .opening ∨ bk.phase = .addr ∨ bk.phase = .control ∨ bk.phase = .len →
    bk.partialLengthLow = 0
  /-- R22: only a two-byte length, under EXTENDED_B, leaves a value in `partial_length_low`. -/
  low_legacy : m = .legacyA → bk.partialLengthLow = 0

/-- The invariant of R35 and R22 for both banks. -/
def State.Inv (s : State) : Prop := ∀ d, (s.bank d).Inv s.cfg.lenMode

/-! ## Changing what must not matter -/

/-- The same state with another `CFG.format`. -/
def State.withFormat (f : Format) (s : State) : State := { s with cfg := { s.cfg with format := f } }

/-- The same state with `CFG.debug` off and its diagnostic events taken out of the output. -/
def State.withoutDebug (s : State) : State :=
  { s with cfg := { s.cfg with debug := false }, output := s.output.filter OutEvent.isData }

/-- Rename every position in a state. -/
def State.rename (f : Pos → Pos) (s : State) : State :=
  { s with
    input := s.input.map (InEvent.rename f)
    output := s.output.map (fun ev => { ev with origin := ev.origin.rename f }) }

/-- Map the next state of an answer. -/
def mapNext (f : State → State) : Result → Result
  | .next s => .next (f s)
  | .fault r => .fault r
  | .refused r => .refused r

end Sys2Proof.Machine
end

