-- ==== Sys2Proof/Certificates/Slice0/Obligations.lean ====
section
/-! DEFINITION. The statements about the block, for the provers. -/

section

open Sys2Proof Sys2Proof.Machine

/-! ## The rows of the operation map -/

/-- R60: in OPEN the byte 0xF9 selects OPEN_FLAG, which reports OpenFlag and goes to ADDR; nothing else changes. -/
def Obligations.FlagInOpenStartsAFrame : Prop :=
  (∀ o s, (s.bank o.dir).phase = .opening → Selects o 0xF9#8 (.openFlag o) s) ∧
  ∀ o s, ∃ t, exec (.openFlag o) s = .next t ∧
    Does o { s.bank o.dir with phase := .addr } (ifDebug s.cfg .openFlag) s t

/-- 40_open_addr.md, OPEN_RESYNC: in OPEN every other byte is reported and the bank stays in OPEN.  The field values
are the spec's own decision D2, logged as assumption 8. -/
def Obligations.OtherByteInOpenResyncs : Prop :=
  (∀ o s b, (s.bank o.dir).phase = .opening → b ≠ 0xF9#8 → Selects o b (.openResync o b) s) ∧
  ∀ o b s, ∃ t, exec (.openResync o b) s = .next t ∧
    Does o ⟨.opening, 0, .none, 0, 0⟩ (ifDebug s.cfg (.resync b)) s t

/-- R62: in ADDR every byte selects ADDR, with the DLC `b / 4`; the row stores and reports it and goes to CONTROL. -/
def Obligations.AddressByteGivesTheDlc : Prop :=
  (∀ o s b, (s.bank o.dir).phase = .addr →
    ∃ dlc eaCr, dlc.toNat = b.toNat / 4 ∧ Selects o b (.addr o dlc eaCr) s) ∧
  ∀ o dlc eaCr s, ∃ t, exec (.addr o dlc eaCr) s = .next t ∧
    Does o { s.bank o.dir with dlc := dlc, phase := .control } (ifDebug s.cfg (.addressByte dlc)) s t

/-- R63: `CtlDecode` gives the six types for the twelve listed bytes and no type for any other byte; the frame-type
codes of the table's last column. -/
def Obligations.ControlDecodeFollowsTheTable : Prop :=
  (∀ b, (ctlDecode b = some .sabm ↔ b = 0x2F#8 ∨ b = 0x3F#8) ∧ (ctlDecode b = some .ua ↔ b = 0x63#8 ∨ b = 0x73#8) ∧
    (ctlDecode b = some .dm ↔ b = 0x0F#8 ∨ b = 0x1F#8) ∧ (ctlDecode b = some .disc ↔ b = 0x43#8 ∨ b = 0x53#8) ∧
    (ctlDecode b = some .uih ↔ b = 0xEF#8 ∨ b = 0xFF#8) ∧ (ctlDecode b = some .ui ↔ b = 0x03#8 ∨ b = 0x13#8) ∧
    (ctlDecode b = none ↔ b ∉ [0x2F#8, 0x3F#8, 0x63#8, 0x73#8, 0x0F#8, 0x1F#8, 0x43#8, 0x53#8, 0xEF#8, 0xFF#8, 0x03#8,
      0x13#8])) ∧
  [FrameType.sabm, .ua, .dm, .disc, .uih, .ui].map FrameType.code = [0#3, 1#3, 2#3, 3#3, 4#3, 5#3]

/-- R64 to R69: in CONTROL each of the twelve listed bytes selects the row of its type, which stores the type, reports
it and goes on to LEN. -/
def Obligations.ControlByteNamesTheFrameType : Prop :=
  ControlRowRule .ctrlSabm 0x2F#8 0x3F#8 .sabm ∧ ControlRowRule .ctrlUa 0x63#8 0x73#8 .ua ∧
  ControlRowRule .ctrlDm 0x0F#8 0x1F#8 .dm ∧ ControlRowRule .ctrlDisc 0x43#8 0x53#8 .disc ∧
  ControlRowRule .ctrlUih 0xEF#8 0xFF#8 .uih ∧ ControlRowRule .ctrlUi 0x03#8 0x13#8 .ui

/-- 41_control.md, CTRL_UNREC: in CONTROL a byte that `CtlDecode` does not recognise is reported and abandons the
frame.  The field values are the spec's own decision D2, logged as assumption 8. -/
def Obligations.UnrecognisedControlByteResyncs : Prop :=
  (∀ o s b, (s.bank o.dir).phase = .control → ctlDecode b = none → Selects o b (.ctrlUnrec o b) s) ∧
  ∀ o b s, ∃ t, exec (.ctrlUnrec o b) s = .next t ∧
    Does o ⟨.opening, 0, .none, 0, 0⟩ (ifDebug s.cfg (.resync b)) s t

/-- 42_length.md, LEN_A and LEN_B_FINAL: in LEN every byte under LEGACY_A, and under EXTENDED_B a byte with bit 0 set,
is the whole length `b / 2`; it is reported and stored as the payload bytes to come, and the frame goes to DATA, or to
FCS when it is 0.  That it is stored is the spec's inference in R71. -/
def Obligations.OneByteLengthEntersTheBody : Prop :=
  (∀ o s b, (s.bank o.dir).phase = .len → s.cfg.lenMode = .legacyA →
    ∃ length lsb, length.toNat = b.toNat / 2 ∧ Selects o b (.lenA o length lsb) s) ∧
  (∀ o s b, (s.bank o.dir).phase = .len → s.cfg.lenMode = .extendedB → b.toNat % 2 = 1 →
    ∃ length, length.toNat = b.toNat / 2 ∧ Selects o b (.lenBFinal o length) s) ∧
  ∀ o length lsb s, ∀ i ∈ [Instr.lenA o length lsb, Instr.lenBFinal o length], ∃ t v, exec i s = .next t ∧
    v.toNat = length.toNat ∧
    Does o { s.bank o.dir with remainingLength := v, phase := if length.toNat = 0 then .fcs else .data }
      (ifDebug s.cfg (.length v false)) s t

/-- 42_length.md, LEN_B_CONT: under EXTENDED_B a length byte with bit 0 clear gives the low part `b / 2`, which is
stored; the frame goes to LEN2, and at most a partial Length event is offered.  This holds for any value that event
might carry (93_implementation_defined.md U3). -/
def Obligations.FirstOfTwoLengthBytesGivesTheLowPart : Prop :=
  (∀ o s b, (s.bank o.dir).phase = .len → s.cfg.lenMode = .extendedB → b.toNat % 2 = 0 →
    ∃ low, low.toNat = b.toNat / 2 ∧ Selects o b (.lenBCont o low) s) ∧
  ∀ o low s, ∃ t v, exec (.lenBCont o low) s = .next t ∧
    Does o { s.bank o.dir with partialLengthLow := low, phase := .len2 } (ifDebug s.cfg (.length v true)) s t

/-- The model's choice of the spec's decision D3, logged as assumption 9: with debug on, the partial Length event
carries the low part. -/
def Obligations.PartialLengthEventCarriesTheLowPart : Prop :=
  ∀ o low s, s.cfg.debug = true → ∃ t v k, exec (.lenBCont o low) s = .next t ∧ v.toNat = low.toNat ∧
    t.output = s.output ++ [⟨o, k, .length v true⟩]

/-- 42_length.md, LEN2: every byte in LEN2 selects LEN2, whatever the length mode; the length
`b * 128 + partial_length_low` is reported and stored, and the frame goes to DATA, or to FCS when it is 0.  That LEN2
does not read the length mode is the spec's own decision D23 (assumption 14), and that the length is stored is the
spec's inference in R71. -/
def Obligations.SecondLengthByteCompletesTheLength : Prop :=
  (∀ o s b, (s.bank o.dir).phase = .len2 → Selects o b (.len2 o b) s) ∧
  ∀ o high s, ∃ t v, exec (.len2 o high) s = .next t ∧
    v.toNat = high.toNat * 128 + (s.bank o.dir).partialLengthLow.toNat ∧
    Does o { s.bank o.dir with remainingLength := v, phase := if v.toNat = 0 then .fcs else .data }
      (ifDebug s.cfg (.length v false)) s t

/-- R76: in DATA with more than one payload byte left, every byte is delivered with the frame's DLC, whatever `debug`
is, and the count goes down by one. -/
def Obligations.PayloadByteWithMoreToFollowIsDelivered : Prop :=
  (∀ o s b, (s.bank o.dir).phase = .data → 1 < (s.bank o.dir).remainingLength.toNat →
    Selects o b (.dataMore o b) s) ∧
  ∀ o value s, 1 ≤ (s.bank o.dir).remainingLength.toNat → ∃ t r, exec (.dataMore o value) s = .next t ∧
    r.toNat + 1 = (s.bank o.dir).remainingLength.toNat ∧
    Does o { s.bank o.dir with remainingLength := r } [.dataByte (s.bank o.dir).dlc value] s t

/-- R77: in DATA with at most one payload byte left, every byte is delivered with the frame's DLC, whatever `debug` is,
and the frame moves to FCS; `remaining_length` is not written. -/
def Obligations.LastPayloadByteIsDelivered : Prop :=
  (∀ o s b, (s.bank o.dir).phase = .data → (s.bank o.dir).remainingLength.toNat ≤ 1 →
    Selects o b (.dataLast o b) s) ∧
  ∀ o value s, ∃ t, exec (.dataLast o value) s = .next t ∧
    Does o { s.bank o.dir with phase := .fcs } [.dataByte (s.bank o.dir).dlc value] s t

/-- R78: in FCS every byte is reported as the checksum, whatever its value, and the frame moves to CLOSE. -/
def Obligations.ChecksumIsReportedNeverChecked : Prop :=
  (∀ o s b, (s.bank o.dir).phase = .fcs → Selects o b (.fcs o b) s) ∧
  ∀ o b s, ∃ t, exec (.fcs o b) s = .next t ∧
    Does o { s.bank o.dir with phase := .close } (ifDebug s.cfg (.checksum b)) s t

/-- 43_data_fcs_close.md, CLOSE_FLAG: in CLOSE the byte 0xF9 is reported as the closing flag and the bank returns to
OPEN.  The field values are the spec's own decision D2, logged as assumption 8. -/
def Obligations.FlagInCloseEndsTheFrame : Prop :=
  (∀ o s, (s.bank o.dir).phase = .close → Selects o 0xF9#8 (.closeFlag o) s) ∧
  ∀ o s, ∃ t, exec (.closeFlag o) s = .next t ∧
    Does o ⟨.opening, 0, .none, 0, 0⟩ (ifDebug s.cfg .closeFlag) s t

/-- 43_data_fcs_close.md, CLOSE_RESYNC: in CLOSE every other byte is reported and the bank returns to OPEN; what was
emitted before stays emitted.  The field values are the spec's own decision D2, logged as assumption 8. -/
def Obligations.OtherByteInCloseResyncs : Prop :=
  (∀ o s b, (s.bank o.dir).phase = .close → b ≠ 0xF9#8 → Selects o b (.closeResync o b) s) ∧
  ∀ o b s, ∃ t, exec (.closeResync o b) s = .next t ∧
    Does o ⟨.opening, 0, .none, 0, 0⟩ (ifDebug s.cfg (.resync b)) s t

/-- 43_data_fcs_close.md, BAD_PHASE: the row returns the bank to OPEN and emits nothing, and no step word is decoded to
it.  The field values are the spec's own decision D2, logged as assumption 8. -/
def Obligations.BadPhaseIsUnreachableAndReturnsToOpen : Prop :=
  (∀ g o w o' b, decodeWord g o w ≠ .badPhase o' b) ∧
  ∀ o b s, ∃ t, exec (.badPhase o b) s = .next t ∧ Does o ⟨.opening, 0, .none, 0, 0⟩ [] s t

/-- R82: an input event of kind OTHER changes no state and emits nothing, in any phase of either bank. -/
def Obligations.EventsThatAreNoBytesAreIgnored : Prop :=
  (∀ o s rest, s.input = .other o :: rest → step s = exec (.nonbyte o) { s with input := rest }) ∧
  ∀ o s, exec (.nonbyte o) s = .next s

/-! ## Decoding -/

/-- 30_encoding.md section 2: decoding the step words of a well-formed operation, under guards that admit its row,
gives the operation back with every operand.  The layout of the step word is the spec's decision D21 and the phase
codes its decision D1 (assumption 19). -/
def Obligations.DecodeOfEncodeIsTheOperation : Prop :=
  ∀ g i, i.wellFormed = true → i.admittedBy g = true → decodeWords g i.origin (encode i) = .ok i

/-- 30_encoding.md section 2: every step word is decoded, under any guards, to a well-formed operation that the guards
admit, and encoding that operation gives the word back.  The layout of the step word is the spec's decision D21 and
the phase codes its decision D1 (assumption 19). -/
def Obligations.EncodeOfDecodeIsTheWord : Prop :=
  ∀ g o w, (decodeWord g o w).wellFormed = true ∧ (decodeWord g o w).admittedBy g = true ∧
    (decodeWord g o w).origin = o ∧ encode (decodeWord g o w) = [w]

/-- 30_encoding.md section 2 (its inference in R52): under any guards every step word matches some row, and two rows
that both match it are OPEN_FLAG with OPEN_RESYNC, CLOSE_FLAG with CLOSE_RESYNC, or a recognising CONTROL row with
CTRL_UNREC. Rows are counted from 0.  The layout of the step word is the spec's decision D21 and the phase codes its
decision D1 (assumption 19). -/
def Obligations.RowsOverlapOnlyWhereTheOrderDecides : Prop :=
  (∀ g w, ∃ r ∈ rows, r.matchesWord g w = true) ∧
  ∀ (g : Guards) (w : StepWord) (i j : Nat) (r r' : Row), i < j → rows[i]? = some r → rows[j]? = some r' →
    r.matchesWord g w = true → r'.matchesWord g w = true →
    (i, j) = (0, 1) ∨ (i, j) = (17, 18) ∨ 3 ≤ i ∧ i ≤ 8 ∧ j = 9

/-- 30_encoding.md section 2, words of the operation map written out from its match column and the operand fields of
its section 3.  The layout of the step word is the spec's decision D21 and the phase codes its decision D1 (assumption
19). -/
def Obligations.WordsOfTheMapAreDecodedAsItSays : Prop :=
  ∀ m r o, decodeWord ⟨m, r⟩ o 0x0F9#11 = .openFlag o ∧ decodeWord ⟨m, r⟩ o 0x0F8#11 = .openResync o 0xF8#8 ∧
    decodeWord ⟨m, r⟩ o 0x107#11 = .addr o 1#6 3#2 ∧ decodeWord ⟨m, r⟩ o 0x23F#11 = .ctrlSabm o true ∧
    decodeWord ⟨m, r⟩ o 0x2EF#11 = .ctrlUih o false ∧ decodeWord ⟨m, r⟩ o 0x22D#11 = .ctrlUnrec o 0x2D#8 ∧
    decodeWord ⟨.legacyA, r⟩ o 0x302#11 = .lenA o 1#7 false ∧ decodeWord ⟨.extendedB, r⟩ o 0x302#11 = .lenBCont o 1#7 ∧
    decodeWord ⟨.extendedB, r⟩ o 0x303#11 = .lenBFinal o 1#7 ∧ decodeWord ⟨m, r⟩ o 0x441#11 = .len2 o 0x41#8 ∧
    decodeWord ⟨m, true⟩ o 0x5F9#11 = .dataMore o 0xF9#8 ∧ decodeWord ⟨m, false⟩ o 0x5F9#11 = .dataLast o 0xF9#8 ∧
    decodeWord ⟨m, r⟩ o 0x6F9#11 = .fcs o 0xF9#8 ∧ decodeWord ⟨m, r⟩ o 0x7F9#11 = .closeFlag o ∧
    decodeWord ⟨m, r⟩ o 0x700#11 = .closeResync o 0x00#8

/-- 30_encoding.md section 7: when the event at the input is decoded to an operation, under the phase and the guards
of the bank of its direction, the step applies that operation to the state with the event taken.  The layout of the
step word is the spec's decision D21 and the phase codes its decision D1 (assumption 19). -/
def Obligations.AStepAppliesTheDecodedOperation : Prop :=
  (∀ s o b rest i, s.input = .byte o b :: rest →
    decodeWords (s.guards o.dir) o [stepWord (s.bank o.dir).phase b] = .ok i →
    step s = exec i { s with input := rest }) ∧
  ∀ s o rest i, s.input = .other o :: rest → decodeWords (s.guards o.dir) o [] = .ok i →
    step s = exec i { s with input := rest }

/-- 60_exceptions.md sections 3 and 4: with no event at the input, a step keeps the state.  That the events to come
stand in State is the model's choice (assumption 1). -/
def Obligations.NoEventNoChange : Prop :=
  ∀ s, s.input = [] → step s = .next s

/-! ## Resync, the debug gate and the routing keys -/

/-- 60_exceptions.md section 1 (its inferences in R93 and R94): with debug on, a byte adds a Resync event with that byte
exactly in the three causes, a byte other than 0xF9 in OPEN or CLOSE and an unrecognised byte in CONTROL. -/
def Obligations.ResyncHasExactlyThreeCauses : Prop :=
  ∀ s t o b rest, s.input = .byte o b :: rest → s.cfg.debug = true → step s = .next t →
    ((∃ k b', t.output = s.output ++ [⟨o, k, .resync b'⟩]) ↔
      (s.bank o.dir).phase = .opening ∧ b ≠ 0xF9#8 ∨ (s.bank o.dir).phase = .control ∧ ctlDecode b = none ∨
      (s.bank o.dir).phase = .close ∧ b ≠ 0xF9#8) ∧
    ∀ k b', t.output = s.output ++ [⟨o, k, .resync b'⟩] → b' = b ∧ (t.bank o.dir).phase = .opening

/-- 44_demux_output.md section 1 (its inference in R85): a byte event adds exactly one event when debug is on, and when
it is off one DataByte event in DATA and none elsewhere; an event of kind OTHER adds none. -/
def Obligations.EachStepEmitsAtMostOneEvent : Prop :=
  (∀ s t o b rest, s.input = .byte o b :: rest → step s = .next t →
    ∃ evs, t.output = s.output ++ evs ∧ (∀ ev ∈ evs, ev.origin = o) ∧
      (s.cfg.debug = true → evs.length = 1) ∧
      (s.cfg.debug = false → (s.bank o.dir).phase = .data → ∃ k, evs = [⟨o, k, .dataByte (s.bank o.dir).dlc b⟩]) ∧
      (s.cfg.debug = false → (s.bank o.dir).phase ≠ .data → evs = [])) ∧
  ∀ s t o rest, s.input = .other o :: rest → step s = .next t → t.output = s.output

/-- 44_demux_output.md section 2: the event that a byte adds carries the key `(dlc + 1) * 2 + dirIndex` if it is a
DataByte, with the DLC of its bank, and `dirIndex` otherwise. RX is 0 and TX is 1 by the spec's decision D7
(assumption 11), and the key of a diagnostic event is its decision D8 (assumption 10).  That the key is not clamped to
the sink's channels is its decision D9 (assumption 15). -/
def Obligations.EveryEventCarriesItsRoutingKey : Prop :=
  ∀ s t o b rest ev, s.input = .byte o b :: rest → step s = .next t → t.output = s.output ++ [ev] →
    ((s.bank o.dir).phase = .data →
      ev.key = ((s.bank o.dir).dlc.toNat + 1) * 2 + (if o.dir = .rx then 0 else 1)) ∧
    ((s.bank o.dir).phase ≠ .data → ev.key = if o.dir = .rx then 0 else 1)

/-- 44_demux_output.md section 2 (its inference in R88): data keys are 2 to 129, give back DLC and direction, and are
no diagnostic key.  That keys are not clamped is the spec's decision D9 (assumption 15), and that the directions are 0
and 1 its decision D7 (assumption 11). -/
def Obligations.RoutingKeysNameOneChannelEach : Prop :=
  ∀ d dlc, 2 ≤ dataKey d dlc ∧ dataKey d dlc ≤ 129 ∧ dataKey d dlc / 2 - 1 = dlc.toNat ∧
    dataKey d dlc % 2 = dirIndex d ∧ ∀ e, dataKey d dlc ≠ dirIndex e

/-- 44_demux_output.md section 2 (its inference in R90): in DATA, the next `remaining_length` bytes of a direction, of
any values, all reach the stream of the frame's key in order, no other stream changes, the bank is then in FCS, and
the debug setting does not matter.  That keys are not clamped is the spec's decision D9 (assumption 15). -/
def Obligations.PayloadReachesItsStreamAndNoOther : Prop :=
  ∀ s os bs rest d, (s.bank d).phase = .data → bs.length = (s.bank d).remainingLength.toNat → bs ≠ [] →
    os.length = bs.length → (∀ o ∈ os, o.dir = d) → s.input = byteEvents os bs ++ rest →
    ∃ t, runSteps bs.length s = .next t ∧ (t.bank d).phase = .fcs ∧ t.input = rest ∧
      payloadStream (dataKey d (s.bank d).dlc) t.output = payloadStream (dataKey d (s.bank d).dlc) s.output ++ bs ∧
      ∀ k, k ≠ dataKey d (s.bank d).dlc → payloadStream k t.output = payloadStream k s.output

/-! ## Invariants -/

/-- 10_state.md sections 2 and 7 (the inferences of R22 and R35): every step keeps the invariant of both banks.  The
reset values it speaks of are the spec's decision D2 (assumption 8). -/
def Obligations.BankInvariantIsKeptByEveryStep : Prop :=
  ∀ s t, s.Inv → step s = .next t → t.Inv

/-- The invariant of both banks holds after reset, whatever the state before it and whatever the host writes.  The
field values after reset are the spec's decision D2 (assumption 8), and a host's reset at any time is its decision D16,
modelled as assumption 5 says. -/
def Obligations.BankInvariantHoldsAfterReset : Prop :=
  State.reset.Inv ∧ ∀ w s t, hostReset w s = .next t → t.Inv

/-- 44_demux_output.md sections 1 and 2: every step keeps the output well formed: each event carries its key, a
ControlByte names a recognised type, and there is a diagnostic event only under debug.  The key of a diagnostic event is the spec's decision D8 (assumption
10), the direction index of TX its decision D7 (assumption 11), and the bound on a partial length rests on its decision
D3 (assumption 9). -/
def Obligations.OutputStaysWellFormed : Prop :=
  ∀ s t, (∀ ev ∈ s.output, ev.wellFormed s.cfg) → step s = .next t → ∀ ev ∈ t.output, ev.wellFormed t.cfg

/-- The output after reset is well formed, and a host's reset adds nothing to it.  That the output is empty after reset
is the model's choice (assumption 2), and so is that a host's reset at any time, the spec's decision D16, keeps the
events emitted before it (assumption 5). -/
def Obligations.OutputIsWellFormedAfterReset : Prop :=
  (∀ ev ∈ State.reset.output, ev.wellFormed State.reset.cfg) ∧
  ∀ w s t, hostReset w s = .next t → t.output = s.output

/-- 30_encoding.md section 2 (its inference in R54): a byte moves the phase of its direction along an edge of the phase
graph and leaves the other direction's phase; an event of kind OTHER leaves both. -/
def Obligations.PhasesMoveOnlyAlongTheGraph : Prop :=
  (∀ s t o b rest, s.input = .byte o b :: rest → step s = .next t →
    (s.bank o.dir).phase.edge s.cfg.lenMode (t.bank o.dir).phase = true ∧
    (t.bank o.dir.other).phase = (s.bank o.dir.other).phase) ∧
  ∀ s t o rest d, s.input = .other o :: rest → step s = .next t → (t.bank d).phase = (s.bank d).phase

/-! ## The whole machine -/

/-- 60_exceptions.md section 1 and 10_state.md section 4: no step of any run from any state faults or is refused; the
host's reset is refused exactly when it writes a reserved `format` code.  The codes are the layout of the spec's
decision D4 (assumption 6), and a host's reset in any state is its decision D16 (assumption 5). -/
def Obligations.EveryInputHasADefinedOutcome : Prop :=
  (∀ k s, ∃ t, runSteps k s = .next t) ∧
  ∀ w s, ((∃ t, hostReset w s = .next t) ↔ ∀ c, w.format = some c → c.toNat ≤ 4) ∧
    ∀ c, hostReset w s = .refused (.reservedFormat c) ↔ w.format = some c ∧ 5 ≤ c.toNat

/-- R24: the step for an event of direction `d` depends only on `ST[d]`, `CFG` and the event, and writes only `ST[d]`
and the output. -/
def Obligations.AStepUsesOnlyItsOwnBank : Prop :=
  (∀ s s' t t' ev rest rest', s.input = ev :: rest → s'.input = ev :: rest' → s.cfg = s'.cfg →
    s.bank ev.dir = s'.bank ev.dir → step s = .next t → step s' = .next t' →
    t.bank ev.dir = t'.bank ev.dir ∧ ∃ evs, t.output = s.output ++ evs ∧ t'.output = s'.output ++ evs) ∧
  ∀ s t ev rest, s.input = ev :: rest → step s = .next t →
    t.bank ev.dir.other = s.bank ev.dir.other ∧ t.cfg = s.cfg ∧ t.input = rest

/-- 60_exceptions.md section 4 and 10_state.md section 4: no run changes `CFG`, and a run takes its events from the
input in order.  That `CFG` is constant in a run is the spec's decision D6 (assumption 7), and that the events to come
stand in State is the model's choice (assumption 1). -/
def Obligations.NoInputReachesTheConfiguration : Prop :=
  ∀ k s t, runSteps k s = .next t → t.cfg = s.cfg ∧ t.input = s.input.drop k

/-- 20_memory.md section 4 (its inference in R45): for direction `d`, the final bank and the events emitted are a
function of `CFG`, the bank at the start and the byte events of direction `d`; bytes of the other direction and events
of kind OTHER, wherever they fall, do not change them. -/
def Obligations.DirectionsAreIsolated : Prop :=
  ∀ d s s' t t' evs evs', s.cfg = s'.cfg → s.bank d = s'.bank d → bytesOf d s.input = bytesOf d s'.input →
    runSteps s.input.length s = .next t → runSteps s'.input.length s' = .next t' →
    t.output = s.output ++ evs → t'.output = s'.output ++ evs' →
    t.bank d = t'.bank d ∧ outputsOf d evs = outputsOf d evs'

/-- 10_state.md section 4 and 44_demux_output.md section 1 (the inference of R28): a run with debug off goes through the
same banks as the run with debug on and emits exactly its DataByte events. -/
def Obligations.DebugOnlyAddsDiagnosticEvents : Prop :=
  ∀ k s t, runSteps k s = .next t → runSteps k s.withoutDebug = .next t.withoutDebug

/-- R29: no transition and no event field depends on `CFG.format`: a run with another format is the same run. -/
def Obligations.FormatIsPresentationOnly : Prop :=
  ∀ f k s, runSteps k (s.withFormat f) = mapNext (State.withFormat f) (runSteps k s)

/-- 30_encoding.md section 1 (decision D10, assumption 3): positions are only copied: renaming them in the input renames
them in the output and changes nothing else. -/
def Obligations.PositionsAreOnlyCopied : Prop :=
  ∀ f k s, runSteps k (s.rename f) = mapNext (State.rename f) (runSteps k s)

/-- 95_test_vectors.md S4: any number of bytes other than 0xF9 in OPEN stays in OPEN and reports one Resync each, in
order, or nothing with debug off.  The bank's field values are the spec's decision D2 (assumption 8), the key of a
diagnostic event its decision D8 (assumption 10) and the direction index of TX its decision D7 (assumption 11). -/
def Obligations.ScanningForAFlagStaysInOpen : Prop :=
  ∀ s os bs rest d, s.bank d = ⟨.opening, 0, .none, 0, 0⟩ → (∀ b ∈ bs, b ≠ 0xF9#8) → os.length = bs.length →
    (∀ o ∈ os, o.dir = d) → s.input = byteEvents os bs ++ rest →
    ∃ t, runSteps bs.length s = .next t ∧ t.bank d = s.bank d ∧ t.bank d.other = s.bank d.other ∧ t.cfg = s.cfg ∧
      t.input = rest ∧ t.output = s.output ++ emittedFor s.cfg os (bs.map .resync)

/-- 95_test_vectors.md S5, with the bound of 90_conflicts.md C5: from OPEN, a frame with a one-byte length of at most
127, in either length mode, reports exactly its parts in order, one event a byte, and returns to OPEN.
The bank's final field values are the spec's decision D2 (assumption 8), the key of a diagnostic event its decision D8
(assumption 10) and the direction index of TX its decision D7 (assumption 11). -/
def Obligations.OneByteLengthFrameIsReportedWhole : Prop :=
  ∀ s d a c ft payload fcs os rest, (s.bank d).phase = .opening → ctlDecode c = some ft → payload.length ≤ 127 →
    os.length = payload.length + 6 → (∀ o ∈ os, o.dir = d) →
    s.input = byteEvents os (shortFrame a c payload fcs) ++ rest →
    ∃ t, runSteps os.length s = .next t ∧ t.bank d = ⟨.opening, 0, .none, 0, 0⟩ ∧
      t.bank d.other = s.bank d.other ∧ t.cfg = s.cfg ∧ t.input = rest ∧
      t.output = s.output ++ emittedFor s.cfg os (shortFrameReports a ft payload fcs)

/-- 30_encoding.md section 5 and 95_test_vectors.md S2: from OPEN under EXTENDED_B, a frame with a two-byte length of at
most 32767 reports exactly its parts in order and returns to OPEN, whatever value the partial Length event carries.
The bank's final field values are the spec's decision D2 (assumption 8), the key of a diagnostic event its decision D8
(assumption 10) and the direction index of TX its decision D7 (assumption 11). -/
def Obligations.TwoByteLengthFrameIsReportedWhole : Prop :=
  ∀ s d a c ft payload fcs os rest, (s.bank d).phase = .opening → s.cfg.lenMode = .extendedB →
    ctlDecode c = some ft → payload.length ≤ 32767 → os.length = payload.length + 7 → (∀ o ∈ os, o.dir = d) →
    s.input = byteEvents os (longFrame a c payload fcs) ++ rest →
    ∃ t low, runSteps os.length s = .next t ∧ t.bank d = ⟨.opening, 0, .none, 0, 0⟩ ∧
      t.bank d.other = s.bank d.other ∧ t.cfg = s.cfg ∧ t.input = rest ∧
      t.output = s.output ++ emittedFor s.cfg os (longFrameReports a ft payload fcs low)

/-- 20_memory.md section 2: under EXTENDED_B two length bytes, the first with bit 0 clear, give the length
`b2 * 128 + b1 / 2`, least-significant part first.  That the length is stored in `remaining_length` is the spec's
inference in R71 (42_length.md, Entering the frame body). -/
def Obligations.TwoLengthBytesCombineLowPartFirst : Prop :=
  ∀ s o₁ o₂ b₁ b₂ rest, s.input = .byte o₁ b₁ :: .byte o₂ b₂ :: rest → o₁.dir = o₂.dir →
    (s.bank o₁.dir).phase = .len → s.cfg.lenMode = .extendedB → b₁.toNat % 2 = 0 →
    ∃ t, runSteps 2 s = .next t ∧ (t.bank o₁.dir).remainingLength.toNat = b₂.toNat * 128 + b₁.toNat / 2

/-! ## Reset and configuration -/

/-- 10_state.md sections 4 and 6: the state after reset, when the host wrote nothing.  The values of `dlc`,
`frame_type`, `remaining_length`, `partial_length_low` and `len_mode` are the spec's decisions D2 and D5 (assumption 8),
and the empty ports are the model's (assumptions 1 and 2). -/
def Obligations.ResetLeavesBothBanksOpen : Prop :=
  (∀ d, State.reset.bank d = ⟨.opening, 0, .none, 0, 0⟩) ∧ State.reset.cfg = ⟨false, .hex, .extendedB⟩ ∧
  State.reset.input = [] ∧ State.reset.output = []

/-- 70_reset_and_hazards.md section 1 (decisions D2, D6 and D16, assumption 5): the host's reset, at any time, puts
both banks in OPEN with reset fields and emits nothing; a field of `CFG` it leaves unwritten takes its default and a
written one its value.  The codes of `format` and `len_mode` are its decision D4 (assumption 6), and the field values
and the default of `len_mode` its decisions D2 and D5 (assumption 8). -/
def Obligations.HostResetDropsFramesSilently : Prop :=
  ∀ w s t, hostReset w s = .next t →
    (∀ d, t.bank d = ⟨.opening, 0, .none, 0, 0⟩) ∧ t.output = s.output ∧ t.input = s.input ∧
    t.cfg.debug = (w.debug).getD false ∧ (w.format = none → t.cfg.format = .hex) ∧
    (∀ c, w.format = some c → (c.toNat, t.cfg.format) ∈ [(0, Format.ascii), (1, .dec), (2, .hex), (3, .oct), (4, .bin)]) ∧
    (t.cfg.lenMode = .legacyA ↔ w.lenMode = some false)

/-- 10_state.md section 4 (decision D4, assumption 6): the 5-bit layout of `CFG`: a write of all five bits is read
back as those bits, and is refused when bits 3 to 1 hold 5, 6 or 7.  That the default `len_mode` is EXTENDED_B, which
the last clause fixes, is the spec's decision D5 (assumption 8). -/
def Obligations.ConfigurationHasTheFiveBitLayout : Prop :=
  (∀ v : BitVec 5, (v.toNat / 2 % 8 ≤ 4 → ∃ c, (CfgWrite.ofBits v).value = .ok c ∧ cfgBits c = v ∧
      (c.debug = true ↔ v.toNat % 2 = 1) ∧ (c.lenMode = .extendedB ↔ 16 ≤ v.toNat)) ∧
    (5 ≤ v.toNat / 2 % 8 → ∃ f, (CfgWrite.ofBits v).value = .error f ∧ f.toNat = v.toNat / 2 % 8)) ∧
  cfgBits Cfg.reset = 0b10100#5

end
end

