-- ==== Sys2Proof/Laws/Decode.lean ====
section
/-! SUPPORT. The fields of a step word and of a byte read back what was written to them, and what the numbers of R55
say about them. -/

namespace Sys2Proof

@[simp] theorem Phase.ofCode_code (p : Phase) : Phase.ofCode p.code = p := by cases p <;> rfl

theorem Phase.code_ofCode : ∀ c : BitVec 3, (Phase.ofCode c).code = c := by decide

/-- The upper part of an append. -/
theorem extractLsb'_append_high {m n : Nat} (x : BitVec m) (y : BitVec n) : (x ++ y).extractLsb' n m = x := by
  ext i h
  simp [BitVec.getElem_extractLsb', BitVec.getLsbD_append, h]

/-- The lower part of an append. -/
theorem extractLsb'_append_low {m n : Nat} (x : BitVec m) (y : BitVec n) : (x ++ y).extractLsb' 0 n = y := by
  ext i h
  simp [BitVec.getElem_extractLsb', BitVec.getLsbD_append, h]

@[simp] theorem wordByte_stepWord (p : Phase) (b : Byte) : wordByte (stepWord p b) = b :=
  extractLsb'_append_low _ _

@[simp] theorem wordPhase_stepWord (p : Phase) (b : Byte) : wordPhase (stepWord p b) = p := by
  rw [wordPhase, stepWord, extractLsb'_append_high, Phase.ofCode_code]

/-- A step word masked by a phase mask and a byte mask: the phase code with the masked byte. -/
theorem stepWord_and (p : Phase) (b : Byte) (m : BitVec 3) (n : Byte) :
    stepWord p b &&& (m ++ n : StepWord) = (p.code &&& m) ++ (b &&& n) := by
  rw [stepWord, BitVec.and_append]

/-! ## Fields of a byte -/

@[simp] theorem dlcField_append (dlc : BitVec 6) (eaCr : BitVec 2) : dlcField (dlc ++ eaCr) = dlc :=
  extractLsb'_append_high _ _

@[simp] theorem eaCrField_append (dlc : BitVec 6) (eaCr : BitVec 2) : eaCrField (dlc ++ eaCr) = eaCr :=
  extractLsb'_append_low _ _

@[simp] theorem shortField_append (v : BitVec 7) (lsb : BitVec 1) : shortField (v ++ lsb) = v :=
  extractLsb'_append_high _ _

@[simp] theorem finalMarker_append (v : BitVec 7) (lsb : Bool) : finalMarker (v ++ BitVec.ofBool lsb) = lsb := by
  revert lsb; revert v; decide

/-- The DLC of an address byte is the byte divided by 4 (R55). -/
theorem dlcField_toNat (b : Byte) : (dlcField b).toNat = b.toNat / 4 := by
  simp only [dlcField, BitVec.extractLsb'_toNat, Nat.shiftRight_eq_div_pow]
  omega

/-- The short length of a byte is the byte divided by 2 (R55). -/
theorem shortField_toNat (b : Byte) : (shortField b).toNat = b.toNat / 2 := by
  simp only [shortField, BitVec.extractLsb'_toNat, Nat.shiftRight_eq_div_pow]
  omega

/-- The final marker is the byte modulo 2 (R55). -/
theorem finalMarker_iff (b : Byte) : finalMarker b = true ↔ b.toNat % 2 = 1 := by
  simp [finalMarker, BitVec.getLsbD, Nat.testBit_zero]

/-- A control byte and its poll/final bit: the pattern is what the mask of R63 leaves. -/
theorem controlByte_fields : ∀ pf : Bool, ∀ c ∈ controlPatterns,
    controlByte c pf &&& 0xEF#8 = c ∧ pollFinal (controlByte c pf) = pf := by decide

end Sys2Proof
end

