-- ==== Sys2Proof/Laws/State.lean ====
section
/-! SUPPORT. The small laws of State, one per field and update, and what each shared operation of the machine does to
each part of the state. -/

namespace Sys2Proof

variable (d : Dir)

@[simp] theorem Dir.other_other : d.other.other = d := by cases d <;> rfl
@[simp] theorem Dir.other_ne : d.other ≠ d := by cases d <;> decide
@[simp] theorem Dir.ne_other : d ≠ d.other := by cases d <;> decide

theorem Dir.eq_other_of_ne {d e : Dir} (h : e ≠ d) : e = d.other := by
  cases d <;> cases e <;> first | rfl | exact absurd rfl h

end Sys2Proof

namespace Sys2Proof.Machine

variable (d : Dir) (bk : Bank) (s : State) (o : Origin) (p : Payload)

/-! ## Reading a bank, and after a write -/

@[simp] theorem bank_rx : s.bank .rx = s.rx := rfl
@[simp] theorem bank_tx : s.bank .tx = s.tx := rfl
@[simp] theorem setBank_bank : (s.setBank d bk).bank d = bk := by cases d <;> rfl
@[simp] theorem setBank_bank_other : (s.setBank d bk).bank d.other = s.bank d.other := by cases d <;> rfl
@[simp] theorem setBank_cfg : (s.setBank d bk).cfg = s.cfg := by cases d <;> rfl
@[simp] theorem setBank_input : (s.setBank d bk).input = s.input := by cases d <;> rfl
@[simp] theorem setBank_output : (s.setBank d bk).output = s.output := by cases d <;> rfl

theorem setBank_bank_ne {e : Dir} (h : e ≠ d) : (s.setBank d bk).bank e = s.bank e := by
  rw [Dir.eq_other_of_ne h]; simp

@[simp] theorem setBank_setBank (bk' : Bank) : (s.setBank d bk).setBank d bk' = s.setBank d bk' := by cases d <;> rfl

@[simp] theorem input_bank (evs : List InEvent) : ({ s with input := evs } : State).bank d = s.bank d := by
  cases d <;> rfl

@[simp] theorem output_bank (evs : List OutEvent) : ({ s with output := evs } : State).bank d = s.bank d := by
  cases d <;> rfl

@[simp] theorem cfg_bank (c : Cfg) : ({ s with cfg := c } : State).bank d = s.bank d := by cases d <;> rfl

/-- Two states with the same banks, configuration and ports are equal. -/
theorem State.ext_of_bank {s t : State} (hb : ∀ d, s.bank d = t.bank d) (hc : s.cfg = t.cfg)
    (hi : s.input = t.input) (ho : s.output = t.output) : s = t := by
  have h₁ := hb .rx
  have h₂ := hb .tx
  cases s; cases t; simp_all

/-! ## Emit -/

/-- The events `Emit` adds to the output (R84): one, or none when the debug gate drops it. -/
def emitted (cfg : Cfg) (o : Origin) (p : Payload) : List OutEvent :=
  if passesGate cfg p then [complete o p] else []

@[simp] theorem emit_bank : (emit o p s).bank d = s.bank d := by unfold emit; split <;> simp
@[simp] theorem emit_cfg : (emit o p s).cfg = s.cfg := by unfold emit; split <;> rfl
@[simp] theorem emit_input : (emit o p s).input = s.input := by unfold emit; split <;> rfl
@[simp] theorem emit_output : (emit o p s).output = s.output ++ emitted s.cfg o p := by
  unfold emit emitted; split <;> simp

/-- Up to its key, what `Emit` adds for a diagnostic event is what the debug setting says. -/
theorem emitted_diagnostic (cfg : Cfg) (h : isDiagnostic p = true) :
    (emitted cfg o p).map (fun ev => (ev.origin, ev.payload)) = (ifDebug cfg p).map (fun p => (o, p)) := by
  cases hd : cfg.debug <;> simp [emitted, ifDebug, passesGate, h, hd, complete]

/-- A DataByte event is always emitted, with the key of R86. -/
theorem emitted_dataByte (cfg : Cfg) (dlc : BitVec 6) (v : Byte) :
    emitted cfg o (.dataByte dlc v) = [⟨o, dataKey o.dir dlc, .dataByte dlc v⟩] := by
  simp [emitted, passesGate, isDiagnostic, complete, keyOf]

/-! ## The other shared operations -/

@[simp] theorem setPhase_bank (q : Phase) : (setPhase d q s).bank d = { s.bank d with phase := q } := by
  simp [setPhase]
@[simp] theorem setPhase_bank_other (q : Phase) : (setPhase d q s).bank d.other = s.bank d.other := by simp [setPhase]
@[simp] theorem setPhase_cfg (q : Phase) : (setPhase d q s).cfg = s.cfg := by simp [setPhase]
@[simp] theorem setPhase_input (q : Phase) : (setPhase d q s).input = s.input := by simp [setPhase]
@[simp] theorem setPhase_output (q : Phase) : (setPhase d q s).output = s.output := by simp [setPhase]

@[simp] theorem backToOpen_bank : (backToOpen d s).bank d = openBank := by
  simp [backToOpen, Bank.resetFields, openBank]
@[simp] theorem backToOpen_bank_other : (backToOpen d s).bank d.other = s.bank d.other := by simp [backToOpen]
@[simp] theorem backToOpen_cfg : (backToOpen d s).cfg = s.cfg := by simp [backToOpen]
@[simp] theorem backToOpen_input : (backToOpen d s).input = s.input := by simp [backToOpen]
@[simp] theorem backToOpen_output : (backToOpen d s).output = s.output := by simp [backToOpen]

@[simp] theorem enterBody_bank (len : BitVec 15) : (enterBody d len s).bank d =
    { s.bank d with remainingLength := len, phase := if len = 0 then .fcs else .data } := by simp [enterBody]
@[simp] theorem enterBody_bank_other (len : BitVec 15) : (enterBody d len s).bank d.other = s.bank d.other := by
  simp [enterBody]
@[simp] theorem enterBody_cfg (len : BitVec 15) : (enterBody d len s).cfg = s.cfg := by simp [enterBody]
@[simp] theorem enterBody_input (len : BitVec 15) : (enterBody d len s).input = s.input := by simp [enterBody]
@[simp] theorem enterBody_output (len : BitVec 15) : (enterBody d len s).output = s.output := by simp [enterBody]

@[simp] theorem openBank_eq_reset : Bank.reset = openBank := rfl

end Sys2Proof.Machine
end

