-- ==== Sys2Proof/Laws/Fetch.lean ====
section
/-! SUPPORT. What a step does with the input port, and runs through the host's interface. -/

namespace Sys2Proof.Machine

/-- With no event at the input the block keeps its state. -/
theorem step_idle {s : State} (h : s.input = []) : step s = .next s := by simp [step, fetch, h]

/-- With an event at the input, a step applies the event's row to the state with the event taken. -/
theorem step_event {s : State} {ev : InEvent} {rest : List InEvent} (h : s.input = ev :: rest) :
    step s = exec (decodeEvent s ev) { s with input := rest } := by simp [step, fetch, h]

/-- One more step of any machine's run, where its first step answers next. -/
theorem core_run_succ {M : Host.Core} {s t : M.State} (h : M.step s = .next t) (k : Nat) :
    M.run (k + 1) s = M.run k t := by
  simp [Host.Core.run, h]

/-- A first step that answers next is the head of a run. -/
theorem runSteps_succ {s t : State} (h : step s = .next t) (k : Nat) : runSteps (k + 1) s = runSteps k t := by
  simp [runSteps, h]

/-- Runs compose. -/
theorem runSteps_add {s t : State} {j : Nat} (h : runSteps j s = .next t) (k : Nat) :
    runSteps (j + k) s = runSteps k t := by
  induction j generalizing s with
  | zero => cases h; simp
  | succ j ih =>
    rw [Nat.succ_add]
    cases hs : step s with
    | next u => rw [runSteps_succ hs]; exact ih (by rwa [runSteps_succ hs] at h)
    | fault r => simp [runSteps, hs] at h
    | refused r => simp [runSteps, hs] at h

end Sys2Proof.Machine
end

