-- ==== Sys2Proof/Laws/Exec.lean ====
section
/-! SUPPORT. What every operation does, said once: it answers next, its new bank and the event it offers are functions
of the operation and the old bank, and it changes nothing else. -/

namespace Sys2Proof.Machine

/-- The bank an operation leaves, from the bank it finds. -/
def ruleBank (i : Instr) (bk : Bank) : Bank :=
  match i with
  | .openFlag _ => { bk with phase := .addr }
  | .openResync _ _ => openBank
  | .addr _ dlc _ => { bk with dlc := dlc, phase := .control }
  | .ctrlSabm _ _ => { bk with frameType := .sabm, phase := .len }
  | .ctrlUa _ _ => { bk with frameType := .ua, phase := .len }
  | .ctrlDm _ _ => { bk with frameType := .dm, phase := .len }
  | .ctrlDisc _ _ => { bk with frameType := .disc, phase := .len }
  | .ctrlUih _ _ => { bk with frameType := .uih, phase := .len }
  | .ctrlUi _ _ => { bk with frameType := .ui, phase := .len }
  | .ctrlUnrec _ _ => openBank
  | .lenA _ length _ => { bk with remainingLength := shortLength length, phase := if shortLength length = 0 then .fcs else .data }
  | .lenBFinal _ length => { bk with remainingLength := shortLength length, phase := if shortLength length = 0 then .fcs else .data }
  | .lenBCont _ low => { bk with partialLengthLow := low, phase := .len2 }
  | .len2 _ high =>
    { bk with
      remainingLength := extendedLength high bk.partialLengthLow
      phase := if extendedLength high bk.partialLengthLow = 0 then .fcs else .data }
  | .dataMore _ _ => { bk with remainingLength := bk.remainingLength - 1 }
  | .dataLast _ _ => { bk with phase := .fcs }
  | .fcs _ _ => { bk with phase := .close }
  | .closeFlag _ => openBank
  | .closeResync _ _ => openBank
  | .badPhase _ _ => openBank
  | .nonbyte _ => bk

/-- The event an operation offers to `Emit`, from the bank it finds. -/
def ruleOffer (i : Instr) (bk : Bank) : Option Payload :=
  match i with
  | .openFlag _ => some .openFlag
  | .openResync _ b => some (.resync b)
  | .addr _ dlc _ => some (.addressByte dlc)
  | .ctrlSabm _ _ => some (.controlByte .sabm)
  | .ctrlUa _ _ => some (.controlByte .ua)
  | .ctrlDm _ _ => some (.controlByte .dm)
  | .ctrlDisc _ _ => some (.controlByte .disc)
  | .ctrlUih _ _ => some (.controlByte .uih)
  | .ctrlUi _ _ => some (.controlByte .ui)
  | .ctrlUnrec _ b => some (.resync b)
  | .lenA _ length _ => some (.length (shortLength length) false)
  | .lenBFinal _ length => some (.length (shortLength length) false)
  | .lenBCont _ low => some (.length (partialLengthValue low) true)
  | .len2 _ high => some (.length (extendedLength high bk.partialLengthLow) false)
  | .dataMore _ value => some (.dataByte bk.dlc value)
  | .dataLast _ value => some (.dataByte bk.dlc value)
  | .fcs _ b => some (.checksum b)
  | .closeFlag _ => some .closeFlag
  | .closeResync _ b => some (.resync b)
  | .badPhase _ _ => none
  | .nonbyte _ => none

/-- The events an operation adds to the output under a configuration. -/
def ruleEmits (cfg : Cfg) (i : Instr) (bk : Bank) : List OutEvent :=
  match ruleOffer i bk with
  | some p => emitted cfg i.origin p
  | none => []

/-- The state after an operation: its bank and its output, and nothing else. -/
def afterRule (i : Instr) (s : State) : State :=
  { s.setBank i.origin.dir (ruleBank i (s.bank i.origin.dir)) with
    output := s.output ++ ruleEmits s.cfg i (s.bank i.origin.dir) }

section
variable (i : Instr) (s : State)

@[simp] theorem afterRule_bank : (afterRule i s).bank i.origin.dir = ruleBank i (s.bank i.origin.dir) :=
  (output_bank _ _ _).trans (setBank_bank _ _ _)
@[simp] theorem afterRule_bank_other : (afterRule i s).bank i.origin.dir.other = s.bank i.origin.dir.other :=
  (output_bank _ _ _).trans (setBank_bank_other _ _ _)
@[simp] theorem afterRule_cfg : (afterRule i s).cfg = s.cfg := by simp [afterRule]
@[simp] theorem afterRule_input : (afterRule i s).input = s.input := by simp [afterRule]
@[simp] theorem afterRule_output :
    (afterRule i s).output = s.output ++ ruleEmits s.cfg i (s.bank i.origin.dir) := rfl
end

/-- A state that has the bank and output of `afterRule`, and the rest of `s`, is `afterRule`. -/
theorem eq_afterRule {i : Instr} {s t : State} (hb : t.bank i.origin.dir = ruleBank i (s.bank i.origin.dir))
    (hb' : t.bank i.origin.dir.other = s.bank i.origin.dir.other) (hc : t.cfg = s.cfg) (hi : t.input = s.input)
    (ho : t.output = s.output ++ ruleEmits s.cfg i (s.bank i.origin.dir)) : t = afterRule i s := by
  refine State.ext_of_bank (fun d => ?_) (by simpa using hc) (by simpa using hi) (by simpa using ho)
  by_cases hd : d = i.origin.dir
  · subst hd; simpa using hb
  · rw [Dir.eq_other_of_ne hd]; simpa using hb'

/-- Every operation answers next, with the state of `afterRule`. -/
theorem exec_eq_afterRule (i : Instr) (s : State) : exec i s = .next (afterRule i s) := by
  cases i <;>
    exact congrArg Host.Outcome.next (eq_afterRule
      (by simp [Instr.origin, ruleBank, recognise, resync, completeLength, deliver] <;> rfl)
      (by simp [Instr.origin, recognise, resync, completeLength, deliver])
      (by simp [recognise, resync, completeLength, deliver])
      (by simp [recognise, resync, completeLength, deliver])
      (by simp [Instr.origin, ruleEmits, ruleOffer, recognise, resync, completeLength, deliver]))

/-- A step with an event at the input is the rule of its operation, with the event taken. -/
theorem step_eq_afterRule {s : State} {ev : InEvent} {rest : List InEvent} (h : s.input = ev :: rest) :
    step s = .next (afterRule (decodeEvent s ev) { s with input := rest }) := by
  rw [step_event h, exec_eq_afterRule]

end Sys2Proof.Machine
end

