-- ==== Sys2Proof/Laws/PerInstr.lean ====
section
/-! SUPPORT. The encoding of each operation, one lemma per constructor: every step word of a well-formed operation
matches its own row of R53, and that row reads the operation back from it. -/

namespace Sys2Proof.Laws.EncodeMatchesRow

/-- A step word of the operation `i` has the pattern of a row that builds `i` from it. -/
def Statement (i : Instr) : Prop :=
  i.wellFormed = true → ∀ w ∈ encode i, ∃ r ∈ rows, w &&& r.mask = r.pat ∧ r.build i.origin (wordByte w) = i

/-- The operation's step word matches row number `k` (from 0), and that row builds the operation. -/
theorem of_row {i : Instr} {p : Phase} {b : Byte} {r : Row} (k : Nat) (henc : encodeFields i = some (p, b))
    (hrow : rows[k]? = some r) (hpat : stepWord p b &&& r.mask = r.pat) (hbuild : r.build i.origin b = i) :
    Statement i := by
  intro _ w hw
  obtain rfl : w = stepWord p b := by simpa [encode, henc] using hw
  exact ⟨r, List.mem_of_getElem? hrow, hpat, by rwa [wordByte_stepWord]⟩

theorem openFlag (o : Origin) : Statement (.openFlag o) :=
  of_row 0 rfl rfl (by decide) rfl

theorem openResync (o : Origin) (b : Byte) : Statement (.openResync o b) :=
  of_row 1 rfl rfl (by revert b; decide) (by simp [Instr.origin])

theorem addr (o : Origin) (dlc : BitVec 6) (eaCr : BitVec 2) : Statement (.addr o dlc eaCr) :=
  of_row 2 rfl rfl (by revert eaCr; revert dlc; decide) (by simp [Instr.origin])

theorem ctrlSabm (o : Origin) (pf : Bool) : Statement (.ctrlSabm o pf) :=
  of_row 3 rfl rfl (by revert pf; decide) (by cases pf <;> rfl)

theorem ctrlUa (o : Origin) (pf : Bool) : Statement (.ctrlUa o pf) :=
  of_row 4 rfl rfl (by revert pf; decide) (by cases pf <;> rfl)

theorem ctrlDm (o : Origin) (pf : Bool) : Statement (.ctrlDm o pf) :=
  of_row 5 rfl rfl (by revert pf; decide) (by cases pf <;> rfl)

theorem ctrlDisc (o : Origin) (pf : Bool) : Statement (.ctrlDisc o pf) :=
  of_row 6 rfl rfl (by revert pf; decide) (by cases pf <;> rfl)

theorem ctrlUih (o : Origin) (pf : Bool) : Statement (.ctrlUih o pf) :=
  of_row 7 rfl rfl (by revert pf; decide) (by cases pf <;> rfl)

theorem ctrlUi (o : Origin) (pf : Bool) : Statement (.ctrlUi o pf) :=
  of_row 8 rfl rfl (by revert pf; decide) (by cases pf <;> rfl)

theorem ctrlUnrec (o : Origin) (b : Byte) : Statement (.ctrlUnrec o b) :=
  of_row 9 rfl rfl (by revert b; decide) rfl

theorem lenA (o : Origin) (length : BitVec 7) (lsb : Bool) : Statement (.lenA o length lsb) :=
  of_row 10 rfl rfl (by revert lsb; revert length; decide) (by simp [Instr.origin])

theorem lenBFinal (o : Origin) (length : BitVec 7) : Statement (.lenBFinal o length) :=
  of_row 11 rfl rfl (by revert length; decide) (by simp [Instr.origin])

theorem lenBCont (o : Origin) (low : BitVec 7) : Statement (.lenBCont o low) :=
  of_row 12 rfl rfl (by revert low; decide) (by simp [Instr.origin])

theorem len2 (o : Origin) (high : Byte) : Statement (.len2 o high) :=
  of_row 13 rfl rfl (by revert high; decide) rfl

theorem dataMore (o : Origin) (value : Byte) : Statement (.dataMore o value) :=
  of_row 14 rfl rfl (by revert value; decide) rfl

theorem dataLast (o : Origin) (value : Byte) : Statement (.dataLast o value) :=
  of_row 15 rfl rfl (by revert value; decide) rfl

theorem fcs (o : Origin) (b : Byte) : Statement (.fcs o b) :=
  of_row 16 rfl rfl (by revert b; decide) rfl

theorem closeFlag (o : Origin) : Statement (.closeFlag o) :=
  of_row 17 rfl rfl (by decide) rfl

theorem closeResync (o : Origin) (b : Byte) : Statement (.closeResync o b) :=
  of_row 18 rfl rfl (by revert b; decide) rfl

theorem badPhase (o : Origin) (b : Byte) : Statement (.badPhase o b) := by
  intro h; cases h

theorem nonbyte (o : Origin) : Statement (.nonbyte o) := by
  intro _ w hw; cases hw

end Sys2Proof.Laws.EncodeMatchesRow
end

