-- ==== Sys2Proof/Laws/Rows.lean ====
section
/-! SUPPORT. The row that the first-match decoder takes, phase by phase: the one place that unfolds the operation
map. -/

namespace Sys2Proof

/-- The first element that satisfies `p` is the one at the first index that does. -/
theorem find?_eq_findIdx?_bind {α : Type} (p : α → Bool) (xs : List α) :
    xs.find? p = (xs.findIdx? p).bind (xs[·]?) := by
  induction xs with
  | nil => rfl
  | cons x xs ih =>
    by_cases h : p x
    · simp [List.findIdx?_cons, h]
    · simp [List.findIdx?_cons, h, ih]
      cases List.findIdx? p xs <;> rfl

/-- Where row number `k` is the first that matches, it is the row that is decoded. -/
theorem decodeWord_of_rowIndex {g : Guards} {o : Origin} {p : Phase} {b : Byte} {r : Row} (k : Nat)
    (hr : rows[k]? = some r) (h : rows.findIdx? (Row.matchesWord g (stepWord p b)) = some k) :
    decodeWord g o (stepWord p b) = r.build o b := by
  unfold decodeWord
  rw [find?_eq_findIdx?_bind, h]
  simp [hr]

/-! ## The number of the row, from 0, checked over every byte -/

theorem rowIndex_opening : ∀ m r, ∀ b : Byte,
    rows.findIdx? (Row.matchesWord ⟨m, r⟩ (stepWord .opening b)) = some (if b = flagByte then 0 else 1) := by
  intro m r; cases m <;> cases r <;> decide

theorem rowIndex_addr : ∀ m r, ∀ b : Byte,
    rows.findIdx? (Row.matchesWord ⟨m, r⟩ (stepWord .addr b)) = some 2 := by
  intro m r; cases m <;> cases r <;> decide

/-- The number of the CONTROL row for a result of `CtlDecode`. -/
def controlRowIndex : Option FrameType → Nat
  | some .sabm => 3
  | some .ua => 4
  | some .dm => 5
  | some .disc => 6
  | some .uih => 7
  | some .ui => 8
  | _ => 9

theorem rowIndex_control : ∀ m r, ∀ b : Byte,
    rows.findIdx? (Row.matchesWord ⟨m, r⟩ (stepWord .control b)) = some (controlRowIndex (ctlDecode b)) := by
  intro m r; cases m <;> cases r <;> decide

theorem rowIndex_len_legacy : ∀ r, ∀ b : Byte,
    rows.findIdx? (Row.matchesWord ⟨.legacyA, r⟩ (stepWord .len b)) = some 10 := by
  intro r; cases r <;> decide

theorem rowIndex_len_extended : ∀ r, ∀ b : Byte,
    rows.findIdx? (Row.matchesWord ⟨.extendedB, r⟩ (stepWord .len b)) =
      some (if b.toNat % 2 = 1 then 11 else 12) := by
  intro r; cases r <;> decide

theorem rowIndex_len2 : ∀ m r, ∀ b : Byte,
    rows.findIdx? (Row.matchesWord ⟨m, r⟩ (stepWord .len2 b)) = some 13 := by
  intro m r; cases m <;> cases r <;> decide

theorem rowIndex_data : ∀ m r, ∀ b : Byte,
    rows.findIdx? (Row.matchesWord ⟨m, r⟩ (stepWord .data b)) = some (if r then 14 else 15) := by
  intro m r; cases m <;> cases r <;> decide

theorem rowIndex_fcs : ∀ m r, ∀ b : Byte,
    rows.findIdx? (Row.matchesWord ⟨m, r⟩ (stepWord .fcs b)) = some 16 := by
  intro m r; cases m <;> cases r <;> decide

theorem rowIndex_close : ∀ m r, ∀ b : Byte,
    rows.findIdx? (Row.matchesWord ⟨m, r⟩ (stepWord .close b)) = some (if b = flagByte then 17 else 18) := by
  intro m r; cases m <;> cases r <;> decide

/-- `CtlDecode` never answers NONE. -/
theorem ctlDecode_ne_none : ∀ b : Byte, ctlDecode b ≠ some .none := by decide

/-! ## The operation that is decoded -/

variable (g : Guards) (o : Origin) (b : Byte)

theorem decodeWord_opening_flag : decodeWord g o (stepWord .opening flagByte) = .openFlag o :=
  decodeWord_of_rowIndex 0 rfl (by simpa using rowIndex_opening g.lenMode g.more flagByte)

theorem decodeWord_opening_other (h : b ≠ flagByte) : decodeWord g o (stepWord .opening b) = .openResync o b :=
  decodeWord_of_rowIndex 1 rfl (by simpa [h] using rowIndex_opening g.lenMode g.more b)

theorem decodeWord_addr : decodeWord g o (stepWord .addr b) = .addr o (dlcField b) (eaCrField b) :=
  decodeWord_of_rowIndex 2 rfl (rowIndex_addr g.lenMode g.more b)

/-- The operation of a CONTROL row for a result of `CtlDecode`. -/
def controlInstr (o : Origin) (b : Byte) : Option FrameType → Instr
  | some .sabm => .ctrlSabm o (pollFinal b)
  | some .ua => .ctrlUa o (pollFinal b)
  | some .dm => .ctrlDm o (pollFinal b)
  | some .disc => .ctrlDisc o (pollFinal b)
  | some .uih => .ctrlUih o (pollFinal b)
  | some .ui => .ctrlUi o (pollFinal b)
  | _ => .ctrlUnrec o b

theorem decodeWord_control : decodeWord g o (stepWord .control b) = controlInstr o b (ctlDecode b) := by
  have h := rowIndex_control g.lenMode g.more b
  rcases hc : ctlDecode b with _ | ft
  · rw [hc] at h; exact decodeWord_of_rowIndex 9 rfl h
  · rw [hc] at h
    cases ft with
    | sabm => exact decodeWord_of_rowIndex 3 rfl h
    | ua => exact decodeWord_of_rowIndex 4 rfl h
    | dm => exact decodeWord_of_rowIndex 5 rfl h
    | disc => exact decodeWord_of_rowIndex 6 rfl h
    | uih => exact decodeWord_of_rowIndex 7 rfl h
    | ui => exact decodeWord_of_rowIndex 8 rfl h
    | none => exact absurd hc (ctlDecode_ne_none b)

theorem decodeWord_len_legacy (h : g.lenMode = .legacyA) :
    decodeWord g o (stepWord .len b) = .lenA o (shortField b) (finalMarker b) :=
  decodeWord_of_rowIndex 10 rfl (by simpa [← h] using rowIndex_len_legacy g.more b)

theorem decodeWord_len_final (h : g.lenMode = .extendedB) (hb : b.toNat % 2 = 1) :
    decodeWord g o (stepWord .len b) = .lenBFinal o (shortField b) :=
  decodeWord_of_rowIndex 11 rfl (by simpa [← h, hb] using rowIndex_len_extended g.more b)

theorem decodeWord_len_cont (h : g.lenMode = .extendedB) (hb : b.toNat % 2 = 0) :
    decodeWord g o (stepWord .len b) = .lenBCont o (shortField b) :=
  decodeWord_of_rowIndex 12 rfl (by simpa [← h, hb] using rowIndex_len_extended g.more b)

theorem decodeWord_len2 : decodeWord g o (stepWord .len2 b) = .len2 o b :=
  decodeWord_of_rowIndex 13 rfl (rowIndex_len2 g.lenMode g.more b)

theorem decodeWord_data_more (h : g.more = true) : decodeWord g o (stepWord .data b) = .dataMore o b := by
  obtain ⟨m, r⟩ := g
  obtain rfl : r = true := h
  exact decodeWord_of_rowIndex 14 rfl (rowIndex_data m true b)

theorem decodeWord_data_last (h : g.more = false) : decodeWord g o (stepWord .data b) = .dataLast o b := by
  obtain ⟨m, r⟩ := g
  obtain rfl : r = false := h
  exact decodeWord_of_rowIndex 15 rfl (rowIndex_data m false b)

theorem decodeWord_fcs : decodeWord g o (stepWord .fcs b) = .fcs o b :=
  decodeWord_of_rowIndex 16 rfl (rowIndex_fcs g.lenMode g.more b)

theorem decodeWord_close_flag : decodeWord g o (stepWord .close flagByte) = .closeFlag o :=
  decodeWord_of_rowIndex 17 rfl (by simpa using rowIndex_close g.lenMode g.more flagByte)

theorem decodeWord_close_other (h : b ≠ flagByte) : decodeWord g o (stepWord .close b) = .closeResync o b :=
  decodeWord_of_rowIndex 18 rfl (by simpa [h] using rowIndex_close g.lenMode g.more b)

end Sys2Proof
end

