-- ==== Sys2Proof/Tests/Slice0.lean ====
section
/-! SUPPORT. Our own tests: the smoke test of WellFormed, the words of the operation map, one step for each row with the
vectors of 95_test_vectors.md, reset, and the witnesses that the hypotheses of the obligations can be met. -/

namespace Sys2Proof.Tests

open Sys2Proof.Machine

/-! ## Helpers -/

/-- The next state of an answer, if it is one. -/
def nextOf : Result → Option State
  | .next s => some s
  | .fault _ => none
  | .refused _ => none

/-- An event of direction `d` at position 0. -/
def at0 (d : Dir) : Origin := ⟨d, ⟨0⟩, ⟨0⟩⟩

/-- A state with debug on, the bank `bk` in direction `d`, and one event at the input. -/
def stateWith (d : Dir) (bk : Bank) (ev : InEvent) (m : LenMode := .extendedB) : State :=
  { State.setBank d bk State.reset with cfg := ⟨true, .hex, m⟩, input := [ev] }

/-- What one step of a byte makes of a bank, and the events it adds, without their origin. -/
def stepByte (d : Dir) (bk : Bank) (b : Byte) (m : LenMode := .extendedB) : Option (Bank × List (Nat × Payload)) :=
  (nextOf (step (stateWith d bk (.byte (at0 d) b) m))).map
    fun t => (t.bank d, t.output.map fun ev => (ev.key, ev.payload))

/-! ## WellFormed refuses what no event selects -/

theorem test_smoke_openResync_flag : (Instr.openResync (at0 .rx) 0xF9#8).wellFormed = false := by decide
theorem test_smoke_closeResync_flag : (Instr.closeResync (at0 .rx) 0xF9#8).wellFormed = false := by decide
theorem test_smoke_ctrlUnrec_listed : (Instr.ctrlUnrec (at0 .rx) 0x3F#8).wellFormed = false := by decide
theorem test_smoke_badPhase : (Instr.badPhase (at0 .rx) 0x00#8).wellFormed = false := by decide
theorem test_smoke_wide_word_refused : tableWords 16 0x800 = .error (.wordTooWide 0x800) := by decide
theorem test_smoke_two_words_refused :
    decodeWords resetGuards (at0 .rx) [0x0F9#11, 0x1F9#11] = .error (.tooManyWords 2) := by rfl

/-! ## Words written out bit by bit: phase code, then the byte (R51, R53, R55) -/

theorem test_decode_open_addr (g : Guards) (o : Origin) :
    decodeWord g o 0b000_11111001#11 = .openFlag o ∧ decodeWord g o 0b000_01111110#11 = .openResync o 0x7E#8 ∧
    decodeWord g o 0b001_000010_11#11 = .addr o 2#6 3#2 := by
  obtain ⟨m, r⟩ := g; cases m <;> cases r <;> exact ⟨rfl, rfl, rfl⟩

theorem test_decode_control (g : Guards) (o : Origin) :
    decodeWord g o 0b010_001_1_1111#11 = .ctrlSabm o true ∧ decodeWord g o 0b010_011_0_0011#11 = .ctrlUa o false ∧
    decodeWord g o 0b010_000_1_1111#11 = .ctrlDm o true ∧ decodeWord g o 0b010_010_0_0011#11 = .ctrlDisc o false ∧
    decodeWord g o 0b010_111_0_1111#11 = .ctrlUih o false ∧ decodeWord g o 0b010_000_1_0011#11 = .ctrlUi o true ∧
    decodeWord g o 0b010_001_0_1101#11 = .ctrlUnrec o 0x2D#8 := by
  obtain ⟨m, r⟩ := g; cases m <;> cases r <;> exact ⟨rfl, rfl, rfl, rfl, rfl, rfl, rfl⟩

theorem test_decode_length (r : Bool) (o : Origin) :
    decodeWord ⟨.legacyA, r⟩ o 0b011_1000000_0#11 = .lenA o 64#7 false ∧
    decodeWord ⟨.extendedB, r⟩ o 0b011_0000001_1#11 = .lenBFinal o 1#7 ∧
    decodeWord ⟨.extendedB, r⟩ o 0b011_1111111_0#11 = .lenBCont o 127#7 ∧
    decodeWord ⟨.extendedB, r⟩ o 0b100_01000001#11 = .len2 o 0x41#8 := by
  cases r <;> exact ⟨rfl, rfl, rfl, rfl⟩

theorem test_decode_body (m : LenMode) (o : Origin) :
    decodeWord ⟨m, true⟩ o 0b101_11111001#11 = .dataMore o 0xF9#8 ∧
    decodeWord ⟨m, false⟩ o 0b101_01000001#11 = .dataLast o 0x41#8 ∧
    decodeWord ⟨m, false⟩ o 0b110_11111111#11 = .fcs o 0xFF#8 ∧
    decodeWord ⟨m, false⟩ o 0b111_11111001#11 = .closeFlag o ∧
    decodeWord ⟨m, false⟩ o 0b111_00000000#11 = .closeResync o 0x00#8 ∧
    decodeWords ⟨m, false⟩ o [] = .ok (.nonbyte o) := by
  cases m <;> exact ⟨rfl, rfl, rfl, rfl, rfl, rfl⟩

/-- A word of the table, placed at the input after reset, is decoded and run by the next step. -/
theorem test_withFetchWord : decodeTableWord 16 0x303 = some (.lenBFinal tableOrigin 1#7) ∧
    (nextOf (step (State.reset.withFetchWord 16 0x303))).map (fun t => (t.rx.phase, t.rx.remainingLength, t.input)) =
      some (.data, 1#15, []) := by decide

/-! ## One step for each row (95_test_vectors.md section 2, by the numbers of its vectors) -/

/-- V1. -/
theorem test_openFlag : stepByte .rx openBank 0xF9#8 = some (⟨.addr, 0, .none, 0, 0⟩, [(0, .openFlag)]) := by decide
/-- V7. -/
theorem test_openResync : stepByte .tx openBank 0xFF#8 = some (openBank, [(1, .resync 0xFF#8)]) := by decide
/-- V13. -/
theorem test_addr : stepByte .rx ⟨.addr, 0, .none, 0, 0⟩ 0xF9#8 =
    some (⟨.control, 62#6, .none, 0, 0⟩, [(0, .addressByte 62#6)]) := by decide
/-- V18. -/
theorem test_ctrlSabm : stepByte .rx ⟨.control, 1#6, .none, 0, 0⟩ 0x3F#8 =
    some (⟨.len, 1#6, .sabm, 0, 0⟩, [(0, .controlByte .sabm)]) := by decide
/-- V20. -/
theorem test_ctrlUa : stepByte .rx ⟨.control, 1#6, .none, 0, 0⟩ 0x73#8 =
    some (⟨.len, 1#6, .ua, 0, 0⟩, [(0, .controlByte .ua)]) := by decide
/-- V21. -/
theorem test_ctrlDm : stepByte .rx ⟨.control, 1#6, .none, 0, 0⟩ 0x0F#8 =
    some (⟨.len, 1#6, .dm, 0, 0⟩, [(0, .controlByte .dm)]) := by decide
/-- V24. -/
theorem test_ctrlDisc : stepByte .rx ⟨.control, 1#6, .none, 0, 0⟩ 0x53#8 =
    some (⟨.len, 1#6, .disc, 0, 0⟩, [(0, .controlByte .disc)]) := by decide
/-- V26. -/
theorem test_ctrlUih : stepByte .rx ⟨.control, 1#6, .none, 0, 0⟩ 0xFF#8 =
    some (⟨.len, 1#6, .uih, 0, 0⟩, [(0, .controlByte .uih)]) := by decide
/-- V27. -/
theorem test_ctrlUi : stepByte .rx ⟨.control, 1#6, .none, 0, 0⟩ 0x03#8 =
    some (⟨.len, 1#6, .ui, 0, 0⟩, [(0, .controlByte .ui)]) := by decide
/-- V37: a flag in CONTROL does not open a frame. -/
theorem test_ctrlUnrec : stepByte .rx ⟨.control, 1#6, .none, 0, 0⟩ 0xF9#8 =
    some (openBank, [(0, .resync 0xF9#8)]) := by decide
/-- V47. -/
theorem test_lenA : stepByte .rx ⟨.len, 2#6, .uih, 0, 0⟩ 0xFE#8 .legacyA =
    some (⟨.data, 2#6, .uih, 127#15, 0⟩, [(0, .length 127#15 false)]) := by decide
/-- V41. -/
theorem test_lenA_zero : stepByte .rx ⟨.len, 2#6, .uih, 0, 0⟩ 0x00#8 .legacyA =
    some (⟨.fcs, 2#6, .uih, 0, 0⟩, [(0, .length 0#15 false)]) := by decide
/-- V49. -/
theorem test_lenBFinal_zero : stepByte .rx ⟨.len, 2#6, .uih, 0, 0⟩ 0x01#8 =
    some (⟨.fcs, 2#6, .uih, 0, 0⟩, [(0, .length 0#15 false)]) := by decide
/-- V52. -/
theorem test_lenBFinal : stepByte .rx ⟨.len, 2#6, .uih, 0, 0⟩ 0x7F#8 =
    some (⟨.data, 2#6, .uih, 63#15, 0⟩, [(0, .length 63#15 false)]) := by decide
/-- V56. -/
theorem test_lenBCont : stepByte .rx ⟨.len, 2#6, .uih, 0, 0⟩ 0x80#8 =
    some (⟨.len2, 2#6, .uih, 0, 64#7⟩, [(0, .length 64#15 true)]) := by decide
/-- V59: the largest length. -/
theorem test_len2 : stepByte .rx ⟨.len2, 2#6, .uih, 0, 127#7⟩ 0xFF#8 =
    some (⟨.data, 2#6, .uih, 32767#15, 127#7⟩, [(0, .length 32767#15 false)]) := by decide
/-- V58. -/
theorem test_len2_zero : stepByte .rx ⟨.len2, 2#6, .uih, 0, 0⟩ 0x00#8 =
    some (⟨.fcs, 2#6, .uih, 0, 0⟩, [(0, .length 0#15 false)]) := by decide
/-- V65: a flag is payload. -/
theorem test_dataMore : stepByte .tx ⟨.data, 1#6, .uih, 3#15, 0⟩ 0xF9#8 =
    some (⟨.data, 1#6, .uih, 2#15, 0⟩, [(5, .dataByte 1#6 0xF9#8)]) := by decide
/-- V68. -/
theorem test_dataMore_largest : stepByte .tx ⟨.data, 63#6, .ui, 32767#15, 0⟩ 0xFF#8 =
    some (⟨.data, 63#6, .ui, 32766#15, 0⟩, [(129, .dataByte 63#6 0xFF#8)]) := by decide
/-- V70: the count keeps the value 1. -/
theorem test_dataLast : stepByte .rx ⟨.data, 62#6, .sabm, 1#15, 0⟩ 0xF9#8 =
    some (⟨.fcs, 62#6, .sabm, 1#15, 0⟩, [(126, .dataByte 62#6 0xF9#8)]) := by decide
/-- V72. -/
theorem test_fcs : stepByte .rx ⟨.fcs, 0, .uih, 0, 0⟩ 0xF9#8 =
    some (⟨.close, 0, .uih, 0, 0⟩, [(0, .checksum 0xF9#8)]) := by decide
/-- V74. -/
theorem test_closeFlag : stepByte .rx ⟨.close, 0, .uih, 1#15, 0⟩ 0xF9#8 =
    some (openBank, [(0, .closeFlag)]) := by decide
/-- V77. -/
theorem test_closeResync : stepByte .tx ⟨.close, 5#6, .disc, 0, 0⟩ 0xF8#8 =
    some (openBank, [(1, .resync 0xF8#8)]) := by decide
/-- R81: fields reset, OPEN, nothing emitted. -/
theorem test_badPhase :
    (nextOf (exec (.badPhase (at0 .tx) 0x00#8) (stateWith .tx ⟨.data, 5#6, .ui, 7#15, 9#7⟩ (.other (at0 .tx))))).map
      (fun t => (t.tx, t.output)) = some (openBank, []) := by decide
/-- V80. -/
theorem test_nonbyte :
    (nextOf (step (stateWith .tx ⟨.len2, 1#6, .uih, 0, 5#7⟩ (.other (at0 .tx))))).map (fun t => (t.tx, t.output)) =
      some (⟨.len2, 1#6, .uih, 0, 5#7⟩, []) := by decide

/-! ## The debug gate, reset and the configuration -/

/-- 95_test_vectors.md section 2.12: with debug off a payload byte is emitted and a checksum is not. -/
theorem test_debug_off :
    (emit (at0 .rx) (.dataByte 0#6 0x41#8) State.reset).output = [⟨at0 .rx, 2, .dataByte 0#6 0x41#8⟩] ∧
    (emit (at0 .rx) (.checksum 0xFF#8) State.reset).output = [] := by decide

/-- V82: the defaults; V83: a frame in progress is dropped and nothing is emitted. -/
theorem test_hostReset :
    nextOf (hostReset ⟨none, none, none⟩
      { State.reset with rx := ⟨.data, 1#6, .uih, 40#15, 0⟩, tx := ⟨.len2, 2#6, .uih, 0, 9#7⟩, cfg := ⟨true, .bin, .legacyA⟩ }) =
      some State.reset := by decide

/-- V84. -/
theorem test_reserved_format : [5#3, 6#3, 7#3].map (fun c => (CfgWrite.value ⟨none, some c, none⟩).toOption) =
    [none, none, none] := by decide

/-! ## Witnesses: states and operands that meet the hypotheses of each obligation -/

theorem witness_FlagInOpenStartsAFrame :
    let s := stateWith .rx openBank (.byte (at0 .rx) 0xF9#8)
    (s.bank .rx).phase = .opening ∧ s.input = [.byte (at0 .rx) 0xF9#8] := by decide

theorem witness_OtherByteInOpenResyncs :
    let s := stateWith .tx openBank (.byte (at0 .tx) 0xF8#8)
    (s.bank .tx).phase = .opening ∧ 0xF8#8 ≠ 0xF9#8 ∧ s.input = [.byte (at0 .tx) 0xF8#8] := by decide

theorem witness_AddressByteGivesTheDlc :
    let s := stateWith .rx ⟨.addr, 0, .none, 0, 0⟩ (.byte (at0 .rx) 0xFF#8)
    (s.bank .rx).phase = .addr ∧ (63#6).toNat = (0xFF#8).toNat / 4 ∧ s.input = [.byte (at0 .rx) 0xFF#8] := by decide

theorem witness_ControlByteNamesTheFrameType :
    ∀ b ∈ [0x2F#8, 0x3F#8, 0x63#8, 0x73#8, 0x0F#8, 0x1F#8, 0x43#8, 0x53#8, 0xEF#8, 0xFF#8, 0x03#8, 0x13#8],
      let s := stateWith .rx ⟨.control, 1#6, .none, 0, 0⟩ (.byte (at0 .rx) b)
      (s.bank .rx).phase = .control ∧ s.input = [.byte (at0 .rx) b] := by decide

theorem witness_UnrecognisedControlByteResyncs :
    let s := stateWith .rx ⟨.control, 1#6, .none, 0, 0⟩ (.byte (at0 .rx) 0x2D#8)
    (s.bank .rx).phase = .control ∧ ctlDecode 0x2D#8 = none ∧ s.input = [.byte (at0 .rx) 0x2D#8] := by decide

theorem witness_OneByteLengthEntersTheBody_legacy : ∀ b ∈ [0x00#8, 0xFF#8],
    let s := stateWith .rx ⟨.len, 2#6, .uih, 0, 0⟩ (.byte (at0 .rx) b) .legacyA
    (s.bank .rx).phase = .len ∧ s.cfg.lenMode = .legacyA ∧ s.input = [.byte (at0 .rx) b] := by decide

theorem witness_OneByteLengthEntersTheBody_extended : ∀ b ∈ [0x01#8, 0xFF#8],
    let s := stateWith .rx ⟨.len, 2#6, .uih, 0, 0⟩ (.byte (at0 .rx) b)
    (s.bank .rx).phase = .len ∧ s.cfg.lenMode = .extendedB ∧ b.toNat % 2 = 1 ∧
      s.input = [.byte (at0 .rx) b] := by decide

theorem witness_FirstOfTwoLengthBytesGivesTheLowPart : ∀ b ∈ [0x00#8, 0xFE#8],
    let s := stateWith .rx ⟨.len, 2#6, .uih, 0, 0⟩ (.byte (at0 .rx) b)
    (s.bank .rx).phase = .len ∧ s.cfg.lenMode = .extendedB ∧ b.toNat % 2 = 0 ∧
      s.input = [.byte (at0 .rx) b] := by decide

theorem witness_PartialLengthEventCarriesTheLowPart :
    (stateWith .rx ⟨.len, 2#6, .uih, 0, 0⟩ (.byte (at0 .rx) 0xFE#8)).cfg.debug = true := by decide

theorem witness_SecondLengthByteCompletesTheLength :
    let s := stateWith .rx ⟨.len2, 2#6, .uih, 0, 127#7⟩ (.byte (at0 .rx) 0xFF#8)
    (s.bank .rx).phase = .len2 ∧ s.input = [.byte (at0 .rx) 0xFF#8] := by decide

theorem witness_PayloadByteWithMoreToFollowIsDelivered : ∀ r ∈ [2#15, 32767#15],
    let s := stateWith .rx ⟨.data, 1#6, .uih, r, 0⟩ (.byte (at0 .rx) 0xF9#8)
    (s.bank .rx).phase = .data ∧ 1 < (s.bank .rx).remainingLength.toNat ∧
      s.input = [.byte (at0 .rx) 0xF9#8] := by
  intro r hr
  refine ⟨rfl, ?_, rfl⟩
  simp only [List.mem_cons, List.not_mem_nil, or_false] at hr
  obtain rfl | rfl := hr <;> simp [stateWith, State.setBank]

theorem witness_LastPayloadByteIsDelivered : ∀ r ∈ [0#15, 1#15],
    let s := stateWith .rx ⟨.data, 1#6, .uih, r, 0⟩ (.byte (at0 .rx) 0xF9#8)
    (s.bank .rx).phase = .data ∧ (s.bank .rx).remainingLength.toNat ≤ 1 ∧
      s.input = [.byte (at0 .rx) 0xF9#8] := by
  intro r hr
  refine ⟨rfl, ?_, rfl⟩
  simp only [List.mem_cons, List.not_mem_nil, or_false] at hr
  obtain rfl | rfl := hr <;> simp [stateWith, State.setBank]

theorem witness_ChecksumIsReportedNeverChecked :
    let s := stateWith .rx ⟨.fcs, 1#6, .uih, 1#15, 0⟩ (.byte (at0 .rx) 0xF9#8)
    (s.bank .rx).phase = .fcs ∧ s.input = [.byte (at0 .rx) 0xF9#8] := by decide

theorem witness_FlagInCloseEndsTheFrame :
    let s := stateWith .rx ⟨.close, 1#6, .uih, 1#15, 0⟩ (.byte (at0 .rx) 0xF9#8)
    (s.bank .rx).phase = .close ∧ s.input = [.byte (at0 .rx) 0xF9#8] := by decide

theorem witness_OtherByteInCloseResyncs :
    let s := stateWith .rx ⟨.close, 1#6, .uih, 1#15, 0⟩ (.byte (at0 .rx) 0xFA#8)
    (s.bank .rx).phase = .close ∧ 0xFA#8 ≠ 0xF9#8 ∧ s.input = [.byte (at0 .rx) 0xFA#8] := by decide

theorem witness_EventsThatAreNoBytesAreIgnored :
    (stateWith .rx ⟨.data, 1#6, .uih, 2#15, 0⟩ (.other (at0 .rx))).input = [.other (at0 .rx)] := by decide

theorem witness_DecodeOfEncodeIsTheOperation :
    (Instr.lenA (at0 .rx) 127#7 false).wellFormed = true ∧
    (Instr.lenA (at0 .rx) 127#7 false).admittedBy ⟨.legacyA, false⟩ = true ∧
    (Instr.ctrlUnrec (at0 .tx) 0xFE#8).wellFormed = true ∧
    (Instr.ctrlUnrec (at0 .tx) 0xFE#8).admittedBy resetGuards = true := by decide

/-- Two rows that match one word in each of the three ways the obligation allows. -/
theorem witness_RowsOverlapOnlyWhereTheOrderDecides :
    ∀ x ∈ [((0x0F9#11 : StepWord), 0, 1), (0x7F9#11, 17, 18), (0x22F#11, 3, 9), (0x213#11, 8, 9)],
      (rows[x.2.1]?).map (Row.matchesWord resetGuards x.1) = some true ∧
      (rows[x.2.2]?).map (Row.matchesWord resetGuards x.1) = some true := by decide

theorem witness_AStepAppliesTheDecodedOperation :
    let s := stateWith .rx ⟨.data, 1#6, .uih, 2#15, 0⟩ (.byte (at0 .rx) 0xF9#8)
    s.input = [.byte (at0 .rx) 0xF9#8] ∧
    decodeWord (s.guards .rx) (at0 .rx) (stepWord (s.bank .rx).phase 0xF9#8) = .dataMore (at0 .rx) 0xF9#8 := by decide

theorem witness_NoEventNoChange : State.reset.input = [] := by decide

/-- A byte in OPEN with debug on, for the statements about one step. -/
theorem witness_ResyncHasExactlyThreeCauses : ∀ x ∈ [(Phase.opening, 0xF8#8), (.control, 0x00#8), (.close, 0xFA#8)],
    let s := stateWith .rx ⟨x.1, 0, .none, 0, 0⟩ (.byte (at0 .rx) x.2)
    s.input = [.byte (at0 .rx) x.2] ∧ s.cfg.debug = true ∧
      (nextOf (step s)).map (fun t => t.output) = some [⟨at0 .rx, 0, .resync x.2⟩] := by decide

theorem witness_EachStepEmitsAtMostOneEvent : ∀ p ∈ [Phase.data, .fcs],
    let s := { stateWith .rx ⟨p, 1#6, .uih, 1#15, 0⟩ (.byte (at0 .rx) 0x41#8) with cfg := Cfg.reset }
    s.input = [.byte (at0 .rx) 0x41#8] ∧ s.cfg.debug = false ∧ (nextOf (step s)).isSome = true := by decide

theorem witness_EveryEventCarriesItsRoutingKey :
    ∀ x ∈ [(Dir.rx, Phase.data, 128, Payload.dataByte 63#6 0x41#8), (.tx, .fcs, 1, .checksum 0x41#8)],
      let s := stateWith x.1 ⟨x.2.1, 63#6, .uih, 1#15, 0⟩ (.byte (at0 x.1) 0x41#8)
      s.input = [.byte (at0 x.1) 0x41#8] ∧
        (nextOf (step s)).map (fun t => t.output) = some (s.output ++ [⟨at0 x.1, x.2.2.1, x.2.2.2⟩]) := by decide

theorem witness_PayloadReachesItsStreamAndNoOther :
    let s := { stateWith .tx ⟨.data, 1#6, .uih, 2#15, 0⟩ (.other (at0 .tx)) with
      input := byteEvents [at0 .tx, at0 .tx] [0xF9#8, 0x00#8] ++ [] }
    (s.bank .tx).phase = .data ∧ [0xF9#8, 0x00#8].length = (s.bank .tx).remainingLength.toNat ∧
    [0xF9#8, 0x00#8] ≠ [] ∧ (∀ o ∈ [at0 .tx, at0 .tx], o.dir = .tx) ∧
    s.input = byteEvents [at0 .tx, at0 .tx] [0xF9#8, 0x00#8] ++ [] := by decide

/-- A bank in LEN2 under EXTENDED_B, with a byte to take, meets the invariant. -/
theorem witness_BankInvariantIsKeptByEveryStep :
    (stateWith .rx ⟨.len2, 2#6, .uih, 0, 127#7⟩ (.byte (at0 .rx) 0xFF#8)).Inv ∧
    ∃ t, step (stateWith .rx ⟨.len2, 2#6, .uih, 0, 127#7⟩ (.byte (at0 .rx) 0xFF#8)) = .next t := by
  refine ⟨fun d => ?_, _, step_eq_afterRule rfl⟩
  cases d <;> constructor <;> decide

theorem witness_BankInvariantHoldsAfterReset :
    ∃ t, hostReset ⟨some true, some 4#3, some false⟩ State.reset = .next t := ⟨_, rfl⟩

theorem witness_OutputStaysWellFormed :
    let s := { stateWith .rx ⟨.fcs, 1#6, .uih, 1#15, 0⟩ (.byte (at0 .rx) 0xF9#8) with
      output := [⟨at0 .rx, 4, .dataByte 1#6 0x41#8⟩] }
    (∀ ev ∈ s.output, ev.wellFormed s.cfg) ∧ ∃ t, step s = .next t := by
  refine ⟨fun ev hev => ?_, _, step_eq_afterRule rfl⟩
  obtain rfl := List.mem_singleton.mp hev
  exact ⟨fun h => rfl, rfl⟩

theorem witness_OutputIsWellFormedAfterReset :
    ∃ t, hostReset ⟨none, none, none⟩ (stateWith .rx openBank (.other (at0 .rx))) = .next t := ⟨_, rfl⟩

/-- In each of the eight phases there is a byte to take, and an event of kind OTHER. -/
theorem witness_PhasesMoveOnlyAlongTheGraph :
    ∀ p ∈ [Phase.opening, .addr, .control, .len, .len2, .data, .fcs, .close],
      ∀ ev ∈ [InEvent.byte (at0 .rx) 0x2F#8, .other (at0 .rx)],
        (stateWith .rx ⟨p, 0, .none, 0, 0⟩ ev).input = [ev] ∧
          (nextOf (step (stateWith .rx ⟨p, 0, .none, 0, 0⟩ ev))).isSome = true := by decide

/-- Two states that differ in everything but the bank of RX, `CFG` and the event. -/
theorem witness_AStepUsesOnlyItsOwnBank :
    let s := stateWith .rx ⟨.fcs, 1#6, .uih, 1#15, 0⟩ (.byte (at0 .rx) 0xF9#8)
    let s' := { s with tx := ⟨.data, 2#6, .ui, 5#15, 0⟩, input := s.input ++ [.other (at0 .tx)],
                       output := [⟨at0 .tx, 1, .openFlag⟩] }
    s.input = [.byte (at0 .rx) 0xF9#8] ∧ s'.input = [.byte (at0 .rx) 0xF9#8, .other (at0 .tx)] ∧ s.cfg = s'.cfg ∧
    s.bank (InEvent.byte (at0 .rx) 0xF9#8).dir = s'.bank (InEvent.byte (at0 .rx) 0xF9#8).dir ∧
    (nextOf (step s)).isSome = true ∧ (nextOf (step s')).isSome = true := by decide

theorem witness_NoInputReachesTheConfiguration :
    (nextOf (runSteps 3 (stateWith .rx openBank (.byte (at0 .rx) 0xF9#8)))).isSome = true := by decide

/-- Two inputs with the same RX bytes, one with a TX byte and an event of kind OTHER between them; debug is on, so both
runs emit. -/
theorem witness_DirectionsAreIsolated :
    let cfg : Cfg := ⟨true, .hex, .extendedB⟩
    let s := { State.reset with cfg := cfg, input := [.byte (at0 .rx) 0xF9#8, .byte (at0 .rx) 0x07#8] }
    let s' := { State.reset with
      cfg := cfg, input := [.byte (at0 .rx) 0xF9#8, .byte (at0 .tx) 0xF9#8, .other (at0 .rx), .byte (at0 .rx) 0x07#8] }
    s.cfg = s'.cfg ∧ s.bank .rx = s'.bank .rx ∧ bytesOf .rx s.input = bytesOf .rx s'.input ∧
    (nextOf (runSteps s.input.length s)).map (fun t => t.output) =
      some (s.output ++ [⟨at0 .rx, 0, .openFlag⟩, ⟨at0 .rx, 0, .addressByte 1#6⟩]) ∧
    (nextOf (runSteps s'.input.length s')).map (fun t => t.output) =
      some (s'.output ++ [⟨at0 .rx, 0, .openFlag⟩, ⟨at0 .tx, 1, .openFlag⟩, ⟨at0 .rx, 0, .addressByte 1#6⟩]) := by decide

theorem witness_DebugOnlyAddsDiagnosticEvents :
    (nextOf (runSteps 1 (stateWith .rx openBank (.byte (at0 .rx) 0xF9#8)))).isSome = true := by decide

theorem witness_ScanningForAFlagStaysInOpen :
    let s := { State.reset with input := byteEvents [at0 .rx, at0 .rx] [0xF8#8, 0xFA#8] ++ [] }
    s.bank .rx = ⟨.opening, 0, .none, 0, 0⟩ ∧ (∀ b ∈ [0xF8#8, 0xFA#8], b ≠ 0xF9#8) ∧
    [at0 .rx, at0 .rx].length = [0xF8#8, 0xFA#8].length ∧ (∀ o ∈ [at0 .rx, at0 .rx], o.dir = .rx) ∧
    s.input = byteEvents [at0 .rx, at0 .rx] [0xF8#8, 0xFA#8] ++ [] := by decide

/-- The empty and the longest payload of a one-byte length. -/
theorem witness_OneByteLengthFrameIsReportedWhole : ∀ n ∈ [0, 127],
    let payload := List.replicate n 0x30#8
    let os := List.replicate (n + 6) (at0 .rx)
    let s := { State.reset with input := byteEvents os (shortFrame 0x0D#8 0x73#8 payload 0xAB#8) ++ [] }
    (s.bank .rx).phase = .opening ∧ ctlDecode 0x73#8 = some .ua ∧ payload.length ≤ 127 ∧
    os.length = payload.length + 6 ∧ (∀ o ∈ os, o.dir = .rx) ∧
    s.input = byteEvents os (shortFrame 0x0D#8 0x73#8 payload 0xAB#8) ++ [] := by
  intro n hn
  refine ⟨rfl, rfl, ?_, by simp, fun o ho => (List.eq_of_mem_replicate ho) ▸ rfl, rfl⟩
  rw [List.length_replicate]
  simp only [List.mem_cons, List.not_mem_nil, or_false] at hn
  omega

/-- The empty and the longest payload of a two-byte length. -/
theorem witness_TwoByteLengthFrameIsReportedWhole : ∀ n ∈ [0, 32767],
    let payload := List.replicate n 0x30#8
    let os := List.replicate (n + 7) (at0 .tx)
    let s := { State.reset with input := byteEvents os (longFrame 0x05#8 0xEF#8 payload 0x5A#8) ++ [] }
    (s.bank .tx).phase = .opening ∧ s.cfg.lenMode = .extendedB ∧ ctlDecode 0xEF#8 = some .uih ∧
    payload.length ≤ 32767 ∧ os.length = payload.length + 7 ∧ (∀ o ∈ os, o.dir = .tx) ∧
    s.input = byteEvents os (longFrame 0x05#8 0xEF#8 payload 0x5A#8) ++ [] := by
  intro n hn
  refine ⟨rfl, rfl, rfl, ?_, by simp, fun o ho => (List.eq_of_mem_replicate ho) ▸ rfl, rfl⟩
  rw [List.length_replicate]
  simp only [List.mem_cons, List.not_mem_nil, or_false] at hn
  omega

theorem witness_TwoLengthBytesCombineLowPartFirst : ∀ b₁ ∈ [0x00#8, 0xFE#8],
    let s := { stateWith .rx ⟨.len, 2#6, .uih, 0, 0⟩ (.other (at0 .rx)) with
      input := [.byte (at0 .rx) b₁, .byte (at0 .rx) 0xFF#8] }
    s.input = [.byte (at0 .rx) b₁, .byte (at0 .rx) 0xFF#8] ∧ (s.bank .rx).phase = .len ∧
    s.cfg.lenMode = .extendedB ∧ b₁.toNat % 2 = 0 := by decide

theorem witness_HostResetDropsFramesSilently : ∀ c ∈ [0#3, 1#3, 2#3, 3#3, 4#3],
    (nextOf (hostReset ⟨none, some c, some false⟩ (stateWith .rx ⟨.data, 1#6, .uih, 40#15, 0⟩ (.other (at0 .rx))))).isSome =
      true := by decide

theorem witness_ConfigurationHasTheFiveBitLayout :
    (0b01001#5).toNat / 2 % 8 ≤ 4 ∧ 5 ≤ (0b01010#5).toNat / 2 % 8 := by decide

end Sys2Proof.Tests
end

section
/-! SUPPORT. What a step reads and writes, and that a change of the state that commutes with a step commutes with a
run. -/

namespace Sys2Proof

/-! ## The origin of the decoded operation -/

/-- Every row of R53 builds an operation of the event's own origin. -/
theorem rows_build_origin (o : Origin) (b : Byte) : ∀ r ∈ rows, (r.build o b).origin = o := by
  simp [rows, rowsOpenAddr, rowsControl, rowsLength, rowsBody, Instr.origin]

@[simp] theorem decodeWord_origin (g : Guards) (o : Origin) (w : StepWord) : (decodeWord g o w).origin = o := by
  unfold decodeWord
  split
  next r hr => exact rows_build_origin o _ r (List.mem_of_find?_eq_some hr)
  next => rfl

end Sys2Proof

namespace Sys2Proof.Machine

@[simp] theorem decodeEvent_origin_dir (s : State) (ev : InEvent) : (decodeEvent s ev).origin.dir = ev.dir := by
  cases ev with
  | byte o b => exact congrArg Origin.dir (decodeWord_origin _ o _)
  | other o => rfl

/-! ## What decoding and emitting read -/

/-- Decoding an event reads the length mode and the bank of the event's direction, and nothing else (R24, R51). -/
theorem decodeEvent_congr {s s' : State} {ev : InEvent} (hmode : s.cfg.lenMode = s'.cfg.lenMode)
    (hbank : s.bank ev.dir = s'.bank ev.dir) : decodeEvent s ev = decodeEvent s' ev := by
  cases ev with
  | byte o b =>
    simp only [InEvent.dir] at hbank
    simp only [decodeEvent, State.guards, hmode, hbank]
  | other o => rfl

/-- Of `CFG`, `Emit` reads only the debug gate (R84). -/
theorem emitted_congr_debug {c c' : Cfg} (h : c.debug = c'.debug) (o : Origin) (p : Payload) :
    emitted c o p = emitted c' o p := by
  have hgate : passesGate c p = passesGate c' p := by rw [passesGate, passesGate, h]
  rw [emitted, emitted, hgate]

/-- Of `CFG`, the events of an operation depend only on the debug gate. -/
theorem ruleEmits_congr_debug {c c' : Cfg} (h : c.debug = c'.debug) (i : Instr) (bk : Bank) :
    ruleEmits c i bk = ruleEmits c' i bk := by
  unfold ruleEmits
  cases ruleOffer i bk with
  | some p => exact emitted_congr_debug h i.origin p
  | none => rfl

/-! ## What a step does to each part of the state -/

/-- The whole effect of a step that takes the event `ev`, part by part (R24): its bank and what it emits come from its
decoded operation and its old bank, and nothing else changes. -/
theorem step_effect {s t : State} {ev : InEvent} {rest : List InEvent} (hin : s.input = ev :: rest)
    (hstep : step s = .next t) :
    t.bank ev.dir = ruleBank (decodeEvent s ev) (s.bank ev.dir) ∧ t.bank ev.dir.other = s.bank ev.dir.other ∧
    t.cfg = s.cfg ∧ t.input = rest ∧ t.output = s.output ++ ruleEmits s.cfg (decodeEvent s ev) (s.bank ev.dir) := by
  rw [step_eq_afterRule hin] at hstep
  obtain rfl := Host.Outcome.next.inj hstep
  have hdir : (decodeEvent s ev).origin.dir = ev.dir := decodeEvent_origin_dir s ev
  generalize decodeEvent s ev = i at hdir
  rw [← hdir]
  simp

/-- Settles O35: by `step_effect` every part a step writes is a function of the decoded operation, the old bank and
`CFG`, and the decoded operation reads no more than these. -/
theorem aStepUsesOnlyItsOwnBank : Obligations.AStepUsesOnlyItsOwnBank := by
  refine ⟨fun s s' t t' ev rest rest' hin hin' hcfg hbank hstep hstep' => ?_, fun s t ev rest hin hstep => ?_⟩
  · obtain ⟨hb, -, -, -, ho⟩ := step_effect hin hstep
    obtain ⟨hb', -, -, -, ho'⟩ := step_effect hin' hstep'
    have hdec : decodeEvent s ev = decodeEvent s' ev := decodeEvent_congr (congrArg Cfg.lenMode hcfg) hbank
    rw [← hdec, ← hbank] at hb' ho'
    rw [← hcfg] at ho'
    exact ⟨hb.trans hb'.symm, _, ho, ho'⟩
  · obtain ⟨-, hother, hcfg, hinput, -⟩ := step_effect hin hstep
    exact ⟨hother, hcfg, hinput⟩

/-! ## Runs that commute with a change of the state -/

/-- A change of the state that commutes with every step commutes with every run. -/
theorem runSteps_commutes {g : State → State} (hstep : ∀ s, step (g s) = mapNext g (step s)) (k : Nat) (s : State) :
    runSteps k (g s) = mapNext g (runSteps k s) := by
  induction k generalizing s with
  | zero => rfl
  | succ k ih =>
    simp only [runSteps, hstep s]
    cases step s with
    | next t => exact ih t
    | fault r => rfl
    | refused r => rfl

/-! ## The payload format -/

section
variable (f : Format) (s : State)

@[simp] theorem withFormat_bank (d : Dir) : (s.withFormat f).bank d = s.bank d := cfg_bank _ _ _
@[simp] theorem withFormat_input : (s.withFormat f).input = s.input := rfl
@[simp] theorem withFormat_output : (s.withFormat f).output = s.output := rfl
@[simp] theorem withFormat_cfg : (s.withFormat f).cfg = { s.cfg with format := f } := rfl

@[simp] theorem decodeEvent_withFormat (ev : InEvent) : decodeEvent (s.withFormat f) ev = decodeEvent s ev :=
  decodeEvent_congr rfl (withFormat_bank f s _)

/-- The effect of an operation is the same under another format: its bank reads no configuration, and its events read
only the debug gate. -/
theorem afterRule_withFormat (i : Instr) : afterRule i (s.withFormat f) = (afterRule i s).withFormat f := by
  have hevents : ruleEmits (s.withFormat f).cfg i (s.bank i.origin.dir) = ruleEmits s.cfg i (s.bank i.origin.dir) :=
    ruleEmits_congr_debug rfl i _
  exact (eq_afterRule (by simp) (by simp) (by simp) (by simp) (by simp [← hevents])).symm

theorem step_withFormat : step (s.withFormat f) = mapNext (State.withFormat f) (step s) := by
  cases hin : s.input with
  | nil => rw [step_idle hin, step_idle ((withFormat_input f s).trans hin), mapNext]
  | cons ev rest =>
    rw [step_eq_afterRule hin, step_eq_afterRule ((withFormat_input f s).trans hin), decodeEvent_withFormat, mapNext]
    exact congrArg Host.Outcome.next (afterRule_withFormat f { s with input := rest } (decodeEvent s ev))

end

/-- Settles O39: changing the format commutes with every step, so it commutes with every run. -/
theorem formatIsPresentationOnly : Obligations.FormatIsPresentationOnly :=
  fun f k s => runSteps_commutes (step_withFormat f) k s

end Sys2Proof.Machine
end

section
/-! SUPPORT. From the decoder's row to the selected operation, and from the one account of what every operation does
(`exec_eq_afterRule`) to its full effect with its frame.  With them, opening and address (40_open_addr.md). -/

namespace Sys2Proof.Machine

variable {o : Origin} {b : Byte} {s : State}

/-- A byte selects the operation that is decoded from its step word under the phase and the guards of its bank. -/
theorem selects_of_decodeWord {p : Phase} {i : Instr} (hphase : (s.bank o.dir).phase = p)
    (hdec : decodeWord (s.guards o.dir) o (stepWord p b) = i) : Selects o b i s := by
  intro rest hin
  rw [step_event hin, decodeEvent, hphase, hdec]

/-- The effect of an operation with its frame: its bank by `ruleBank`, its events up to their keys, and no more. -/
theorem afterRule_does {i : Instr} {ps : List Payload}
    (hevents : (ruleEmits s.cfg i (s.bank i.origin.dir)).map (fun ev => (ev.origin, ev.payload)) =
      ps.map (fun p => (i.origin, p))) :
    Does i.origin (ruleBank i (s.bank i.origin.dir)) ps s (afterRule i s) :=
  ⟨afterRule_bank i s, afterRule_bank_other i s, afterRule_cfg i s, afterRule_input i s, _, afterRule_output i s, hevents⟩

/-- An operation that offers a diagnostic event completes, and reports it where debug is on. -/
theorem exec_diagnostic_does {i : Instr} {p : Payload} (hoffer : ruleOffer i (s.bank i.origin.dir) = some p)
    (hdiag : isDiagnostic p = true) :
    ∃ t, exec i s = .next t ∧ Does i.origin (ruleBank i (s.bank i.origin.dir)) (ifDebug s.cfg p) s t := by
  refine ⟨afterRule i s, exec_eq_afterRule i s, afterRule_does ?_⟩
  rw [ruleEmits, hoffer]
  exact emitted_diagnostic i.origin p s.cfg hdiag

/-- Settles O1: the flag's step word in OPEN takes row 1, and OPEN_FLAG offers the diagnostic event OpenFlag. -/
theorem flagInOpenStartsAFrame : Obligations.FlagInOpenStartsAFrame :=
  ⟨fun o _ hphase => selects_of_decodeWord hphase (decodeWord_opening_flag _ o),
    fun o _ => exec_diagnostic_does (i := .openFlag o) rfl rfl⟩

/-- Settles O3: every step word in ADDR takes row 3 with the DLC field of its byte, which is the byte divided by 4, and
ADDR offers the diagnostic event AddressByte. -/
theorem addressByteGivesTheDlc : Obligations.AddressByteGivesTheDlc :=
  ⟨fun o _ b hphase =>
      ⟨dlcField b, eaCrField b, dlcField_toNat b, selects_of_decodeWord hphase (decodeWord_addr _ o b)⟩,
    fun o dlc eaCr _ => exec_diagnostic_does (i := .addr o dlc eaCr) rfl rfl⟩

end Sys2Proof.Machine
end

section
/-! SUPPORT. The table of the control decode, said once by type, and from it the CONTROL rows that recognise a frame
type (41_control.md). -/

namespace Sys2Proof

/-- The two control bytes of each type in the table of R63, without and with the poll/final bit; NONE has no byte. -/
def controlBytes : FrameType → List Byte
  | .sabm => [0x2F#8, 0x3F#8]
  | .ua => [0x63#8, 0x73#8]
  | .dm => [0x0F#8, 0x1F#8]
  | .disc => [0x43#8, 0x53#8]
  | .uih => [0xEF#8, 0xFF#8]
  | .ui => [0x03#8, 0x13#8]
  | .none => []

/-- `CtlDecode` names a type exactly for the bytes of that type, checked over every byte. -/
theorem ctlDecode_eq_some_iff (ft : FrameType) : ∀ b : Byte, ctlDecode b = some ft ↔ b ∈ controlBytes ft := by
  cases ft <;> decide

/-- `CtlDecode` names no type exactly for the bytes that belong to no type. -/
theorem ctlDecode_eq_none_iff (b : Byte) : ctlDecode b = none ↔ ∀ ft, b ∉ controlBytes ft := by
  simp only [Option.eq_none_iff_forall_ne_some, ne_eq, ctlDecode_eq_some_iff]

/-- The bytes that belong to no type are those outside the twelve of the table. -/
theorem forall_notMem_controlBytes_iff (b : Byte) : (∀ ft, b ∉ controlBytes ft) ↔
    b ∉ [0x2F#8, 0x3F#8, 0x63#8, 0x73#8, 0x0F#8, 0x1F#8, 0x43#8, 0x53#8, 0xEF#8, 0xFF#8, 0x03#8, 0x13#8] := by
  constructor
  · intro h hb
    have hall : b ∈ [FrameType.sabm, .ua, .dm, .disc, .uih, .ui].flatMap controlBytes := hb
    obtain ⟨ft, -, hft⟩ := List.mem_flatMap.mp hall
    exact h ft hft
  · intro h ft
    cases ft <;> simp_all [controlBytes]

/-- Settles O4: type by type the table is `controlBytes`, and a byte without a type is one outside all six pairs. -/
theorem controlDecodeFollowsTheTable : Obligations.ControlDecodeFollowsTheTable := by
  refine ⟨fun b => ?_, rfl⟩
  rw [ctlDecode_eq_none_iff, forall_notMem_controlBytes_iff]
  simp [ctlDecode_eq_some_iff, controlBytes]

end Sys2Proof

namespace Sys2Proof.Machine

/-- A CONTROL row recognises a type when the bytes of the type are the row's, its operation is the one decoded for the
type, and that operation stores the type, goes on to LEN and offers ControlByte. -/
theorem controlRowRule_of_controlBytes {row : Origin → Bool → Instr} {lo hi : Byte} {ft : FrameType}
    (hbytes : controlBytes ft = [lo, hi]) (hrow : ∀ o b, controlInstr o b (some ft) = row o (pollFinal b))
    (horigin : ∀ o pf, (row o pf).origin = o)
    (hbank : ∀ o pf bk, ruleBank (row o pf) bk = { bk with frameType := ft, phase := .len })
    (hoffer : ∀ o pf bk, ruleOffer (row o pf) bk = some (.controlByte ft)) : ControlRowRule row lo hi ft := by
  refine ⟨fun o s b hphase hb => ⟨pollFinal b, ?_⟩, fun o pf s => ?_⟩
  · have hdec : ctlDecode b = some ft := (ctlDecode_eq_some_iff ft b).mpr (by simpa [hbytes] using hb)
    exact selects_of_decodeWord hphase (by rw [decodeWord_control, hdec, hrow])
  · simpa only [horigin, hbank] using exec_diagnostic_does (s := s) (hoffer o pf _) rfl

/-- Settles O5: each of the six rows meets the conditions of `controlRowRule_of_controlBytes` by definition. -/
theorem controlByteNamesTheFrameType : Obligations.ControlByteNamesTheFrameType := by
  refine ⟨?sabm, ?ua, ?dm, ?disc, ?uih, ?ui⟩ <;>
    exact controlRowRule_of_controlBytes rfl (fun _ _ => rfl) (fun _ _ => rfl) (fun _ _ _ => rfl) fun _ _ _ => rfl

end Sys2Proof.Machine
end

section
/-! SUPPORT. The rows of DATA, whose guard is `remaining_length > 1` and whose event no debug setting drops; with them
the checksum row and the events that are no bytes (43_data_fcs_close.md). -/

namespace Sys2Proof.Machine

variable {o : Origin} {s : State}

/-- Guard `RL` of R51 is set for a direction when more than one payload byte remains in its bank. -/
theorem guards_more_eq_true (h : 1 < (s.bank o.dir).remainingLength.toNat) : (s.guards o.dir).more = true :=
  decide_eq_true h

/-- Guard `RL` of R51 is clear for a direction when at most one payload byte remains in its bank. -/
theorem guards_more_eq_false (h : (s.bank o.dir).remainingLength.toNat ≤ 1) : (s.guards o.dir).more = false :=
  decide_eq_false h.not_gt

/-- An operation that offers a DataByte event completes, and emits it whatever the debug setting. -/
theorem exec_dataByte_does {i : Instr} {dlc : BitVec 6} {value : Byte}
    (hoffer : ruleOffer i (s.bank i.origin.dir) = some (.dataByte dlc value)) :
    ∃ t, exec i s = .next t ∧ Does i.origin (ruleBank i (s.bank i.origin.dir)) [.dataByte dlc value] s t := by
  refine ⟨afterRule i s, exec_eq_afterRule i s, afterRule_does ?_⟩
  rw [ruleEmits, hoffer]
  exact congrArg (List.map _) (emitted_dataByte i.origin s.cfg dlc value)

/-- A count of at least 1 goes down by one without wrapping. -/
theorem toNat_sub_one_add_one {r : BitVec 15} (h : 1 ≤ r.toNat) : (r - 1).toNat + 1 = r.toNat := by
  bv_omega

/-- Settles O11: with the guard set a step word in DATA takes row 15, DATA_MORE offers DataByte, and the guard keeps its
decrement from wrapping. -/
theorem payloadByteWithMoreToFollowIsDelivered : Obligations.PayloadByteWithMoreToFollowIsDelivered := by
  refine ⟨fun o s b hphase hmore => ?_, fun o value s hone => ?_⟩
  · exact selects_of_decodeWord hphase (decodeWord_data_more _ o b (guards_more_eq_true hmore))
  · obtain ⟨t, hexec, hdoes⟩ := exec_dataByte_does (i := .dataMore o value) (s := s) rfl
    exact ⟨t, _, hexec, toNat_sub_one_add_one hone, hdoes⟩

/-- Settles O12: with the guard clear a step word in DATA takes row 16, and DATA_LAST offers DataByte. -/
theorem lastPayloadByteIsDelivered : Obligations.LastPayloadByteIsDelivered :=
  ⟨fun o _ b hphase hlast =>
      selects_of_decodeWord hphase (decodeWord_data_last _ o b (guards_more_eq_false hlast)),
    fun o value _ => exec_dataByte_does (i := .dataLast o value) rfl⟩

/-- Settles O13: every step word in FCS takes row 17, and FCS offers the diagnostic event Checksum. -/
theorem checksumIsReportedNeverChecked : Obligations.ChecksumIsReportedNeverChecked :=
  ⟨fun o _ b hphase => selects_of_decodeWord hphase (decodeWord_fcs _ o b),
    fun o b _ => exec_diagnostic_does (i := .fcs o b) rfl rfl⟩

/-- Settles O17: an event of kind OTHER is decoded to NONBYTE whatever the state, and NONBYTE answers the state it is
given. -/
theorem eventsThatAreNoBytesAreIgnored : Obligations.EventsThatAreNoBytesAreIgnored :=
  ⟨fun _ _ _ hin => step_event hin, fun _ _ => rfl⟩

end Sys2Proof.Machine
end

section
/-! SUPPORT. Decoding undoes encoding, and every step word is the encoding of an operation that the guards admit; from
these two, what the operation map does as a whole (30_encoding.md section 2). -/

namespace Sys2Proof

/-! ## Decoding an encoding -/

/-- The control byte with the poll/final bit clear that the row of a type is encoded with (R53, R63). -/
def controlPattern : FrameType → Byte
  | .sabm => 0x2F#8
  | .ua => 0x63#8
  | .dm => 0x0F#8
  | .disc => 0x43#8
  | .uih => 0xEF#8
  | .ui => 0x03#8
  | .none => 0x00#8

/-- `CtlDecode` reads the type of a control byte whatever its poll/final bit. -/
theorem ctlDecode_controlByte {ft : FrameType} (hft : ft ≠ .none) (pf : Bool) :
    ctlDecode (controlByte (controlPattern ft) pf) = some ft := by
  cases ft with
  | none => exact absurd rfl hft
  | _ => revert pf; decide

theorem pollFinal_controlByte (ft : FrameType) : ∀ pf, pollFinal (controlByte (controlPattern ft) pf) = pf := by
  cases ft <;> decide

/-- A type's control byte is decoded to the row of the type, with the poll/final bit that was put in. -/
theorem decodeWord_controlByte (g : Guards) {o : Origin} {ft : FrameType} {row : Bool → Instr} (hft : ft ≠ .none)
    (hrow : ∀ b, controlInstr o b (some ft) = row (pollFinal b)) (pf : Bool) :
    decodeWord g o (stepWord .control (controlByte (controlPattern ft) pf)) = row pf := by
  rw [decodeWord_control, ctlDecode_controlByte hft, hrow, pollFinal_controlByte]

/-- The control bytes that rows 4 to 9 leave to CTRL_UNREC are those that `CtlDecode` does not recognise. -/
theorem ctlDecode_eq_none_iff_notMem_patterns : ∀ b : Byte,
    ctlDecode b = none ↔ (!controlPatterns.contains (b &&& 0xEF#8)) = true := by decide

/-- A byte put together from a short length and bit 0 is 1 modulo 2 if the bit is set, and 0 if not. -/
theorem append_ofBool_mod_two (v : BitVec 7) (lsb : Bool) : (v ++ BitVec.ofBool lsb).toNat % 2 = lsb.toNat := by
  have h := finalMarker_iff (v ++ BitVec.ofBool lsb)
  rw [finalMarker_append] at h
  cases lsb <;> simp_all

/-- The operation that a step word encodes is decoded from it, row by row. -/
theorem decodeWord_of_encodeFields {g : Guards} {i : Instr} {p : Phase} {b : Byte} (hwf : i.wellFormed = true)
    (hadm : i.admittedBy g = true) (henc : encodeFields i = some (p, b)) :
    decodeWord g i.origin (stepWord p b) = i := by
  cases i <;> cases henc
  case openFlag o => exact decodeWord_opening_flag g o
  case openResync o => exact decodeWord_opening_other g o b (by simpa [Instr.wellFormed] using hwf)
  case addr o dlc eaCr => simp [decodeWord_addr, Instr.origin]
  case ctrlSabm o pf => exact decodeWord_controlByte g (ft := .sabm) nofun (fun _ => rfl) pf
  case ctrlUa o pf => exact decodeWord_controlByte g (ft := .ua) nofun (fun _ => rfl) pf
  case ctrlDm o pf => exact decodeWord_controlByte g (ft := .dm) nofun (fun _ => rfl) pf
  case ctrlDisc o pf => exact decodeWord_controlByte g (ft := .disc) nofun (fun _ => rfl) pf
  case ctrlUih o pf => exact decodeWord_controlByte g (ft := .uih) nofun (fun _ => rfl) pf
  case ctrlUi o pf => exact decodeWord_controlByte g (ft := .ui) nofun (fun _ => rfl) pf
  case ctrlUnrec o =>
    exact (decodeWord_control g o b).trans (by rw [(ctlDecode_eq_none_iff_notMem_patterns b).mpr hwf]; rfl)
  case lenA o length lsb =>
    simp [decodeWord_len_legacy g _ _ (of_decide_eq_true hadm), Instr.origin]
  case lenBFinal o length =>
    have hodd := append_ofBool_mod_two length true
    exact (decodeWord_len_final g o _ (of_decide_eq_true hadm) hodd).trans
      (congrArg (Instr.lenBFinal o) (shortField_append length _))
  case lenBCont o low =>
    have heven := append_ofBool_mod_two low false
    exact (decodeWord_len_cont g o _ (of_decide_eq_true hadm) heven).trans
      (congrArg (Instr.lenBCont o) (shortField_append low _))
  case len2 o => exact decodeWord_len2 g o b
  case dataMore o => exact decodeWord_data_more g o b hadm
  case dataLast o => exact decodeWord_data_last g o b (by simpa [Instr.admittedBy] using hadm)
  case fcs o => exact decodeWord_fcs g o b
  case closeFlag o => exact decodeWord_close_flag g o
  case closeResync o => exact decodeWord_close_other g o b (by simpa [Instr.wellFormed] using hwf)

/-- A well-formed operation other than NONBYTE forms one step word. -/
theorem encodeFields_eq_none {i : Instr} (hwf : i.wellFormed = true) (henc : encodeFields i = none) :
    i = .nonbyte i.origin := by
  cases i <;> cases henc
  case badPhase => cases hwf
  case nonbyte => rfl

/-- Settles O18: an operation with a step word is decoded from it by `decodeWord_of_encodeFields`, and the only other
well-formed one is NONBYTE, which no step word is decoded to. -/
theorem decodeOfEncodeIsTheOperation : Obligations.DecodeOfEncodeIsTheOperation := by
  intro g i hwf hadm
  unfold encode
  split
  next p b henc => exact congrArg Except.ok (decodeWord_of_encodeFields hwf hadm henc)
  next henc => exact congrArg Except.ok (encodeFields_eq_none hwf henc).symm

/-! ## Every step word is an encoding -/

/-- A step word is made of its phase and its byte. -/
theorem stepWord_fields (w : StepWord) : stepWord (wordPhase w) (wordByte w) = w := by
  rw [stepWord, wordPhase, Phase.code_ofCode, wordByte]
  exact (BitVec.extractLsb'_append_extractLsb'_eq_extractLsb' (start₂ := 8) (len₁ := 8) rfl).trans
    BitVec.extractLsb'_eq_self

theorem dlcField_append_eaCrField : ∀ b : Byte, dlcField b ++ eaCrField b = b := by decide

theorem shortField_append_finalMarker : ∀ b : Byte, shortField b ++ BitVec.ofBool (finalMarker b) = b := by decide

/-- A recognised control byte is its type's pattern with its poll/final bit. -/
theorem controlByte_pollFinal (ft : FrameType) : ∀ b : Byte,
    ctlDecode b = some ft → controlByte (controlPattern ft) (pollFinal b) = b := by
  cases ft <;> decide

/-- Some well-formed operation of the given origin, admitted by the guards, has the phase and the byte. -/
def Encodable (g : Guards) (o : Origin) (p : Phase) (b : Byte) : Prop :=
  ∃ i : Instr, i.wellFormed = true ∧ i.admittedBy g = true ∧ i.origin = o ∧ encodeFields i = some (p, b)

/-- A recognised control byte is encoded by the row of its type. -/
theorem encodable_recognised (g : Guards) (o : Origin) {b : Byte} {ft : FrameType} (hc : ctlDecode b = some ft) :
    Encodable g o .control b := by
  have hb := congrArg (fun x => some (Phase.control, x)) (controlByte_pollFinal ft b hc)
  cases ft with
  | sabm => exact ⟨.ctrlSabm o (pollFinal b), rfl, rfl, rfl, hb⟩
  | ua => exact ⟨.ctrlUa o (pollFinal b), rfl, rfl, rfl, hb⟩
  | dm => exact ⟨.ctrlDm o (pollFinal b), rfl, rfl, rfl, hb⟩
  | disc => exact ⟨.ctrlDisc o (pollFinal b), rfl, rfl, rfl, hb⟩
  | uih => exact ⟨.ctrlUih o (pollFinal b), rfl, rfl, rfl, hb⟩
  | ui => exact ⟨.ctrlUi o (pollFinal b), rfl, rfl, rfl, hb⟩
  | none => exact absurd hc (ctlDecode_ne_none b)

/-- A length byte is encoded by the row of its length mode and, under EXTENDED_B, of its bit 0. -/
theorem encodable_len (g : Guards) (o : Origin) (b : Byte) : Encodable g o .len b := by
  have hb := congrArg (fun x => some (Phase.len, x)) (shortField_append_finalMarker b)
  cases hm : g.lenMode with
  | legacyA => exact ⟨.lenA o (shortField b) (finalMarker b), rfl, decide_eq_true hm, rfl, hb⟩
  | extendedB =>
    cases hlsb : finalMarker b with
    | true => exact ⟨.lenBFinal o (shortField b), rfl, decide_eq_true hm, rfl, by rwa [hlsb] at hb⟩
    | false => exact ⟨.lenBCont o (shortField b), rfl, decide_eq_true hm, rfl, by rwa [hlsb] at hb⟩

theorem encodable (g : Guards) (o : Origin) (p : Phase) (b : Byte) : Encodable g o p b := by
  cases p with
  | opening =>
    by_cases hb : b = flagByte
    · subst hb; exact ⟨.openFlag o, rfl, rfl, rfl, rfl⟩
    · exact ⟨.openResync o b, bne_iff_ne.mpr hb, rfl, rfl, rfl⟩
  | addr =>
    exact ⟨.addr o (dlcField b) (eaCrField b), rfl, rfl, rfl,
      congrArg (fun x => some (Phase.addr, x)) (dlcField_append_eaCrField b)⟩
  | control =>
    cases hc : ctlDecode b with
    | some ft => exact encodable_recognised g o hc
    | none => exact ⟨.ctrlUnrec o b, (ctlDecode_eq_none_iff_notMem_patterns b).mp hc, rfl, rfl, rfl⟩
  | len => exact encodable_len g o b
  | len2 => exact ⟨.len2 o b, rfl, rfl, rfl, rfl⟩
  | data =>
    cases hr : g.more with
    | true => exact ⟨.dataMore o b, rfl, hr, rfl, rfl⟩
    | false => exact ⟨.dataLast o b, rfl, by rw [Instr.admittedBy, hr]; rfl, rfl, rfl⟩
  | fcs => exact ⟨.fcs o b, rfl, rfl, rfl, rfl⟩
  | close =>
    by_cases hb : b = flagByte
    · subst hb; exact ⟨.closeFlag o, rfl, rfl, rfl, rfl⟩
    · exact ⟨.closeResync o b, bne_iff_ne.mpr hb, rfl, rfl, rfl⟩

/-- Settles O19: the word is the encoding of an admitted operation by `encodable`, and
`decodeWord_of_encodeFields` says that this is the operation the word is decoded to. -/
theorem encodeOfDecodeIsTheWord : Obligations.EncodeOfDecodeIsTheWord := by
  intro g o w
  obtain ⟨i, hwf, hadm, rfl, henc⟩ := encodable g o (wordPhase w) (wordByte w)
  have hdec : decodeWord g i.origin w = i := by
    rw [← stepWord_fields w]; exact decodeWord_of_encodeFields hwf hadm henc
  rw [hdec]
  exact ⟨hwf, hadm, rfl, by simp [encode, henc, stepWord_fields]⟩

/-- What a step word is decoded to is well formed, which BAD_PHASE is not. -/
theorem decodeWord_ne_badPhase (g : Guards) (o : Origin) (w : StepWord) (o' : Origin) (b : Byte) :
    decodeWord g o w ≠ .badPhase o' b := by
  intro h
  obtain ⟨hwf, -⟩ := encodeOfDecodeIsTheWord g o w
  rw [h] at hwf
  cases hwf

/-! ## Overlapping rows -/

/-- Whether the guards and the fixed bits of two rows let one word match both. -/
def Row.overlaps (g : Guards) (r r' : Row) : Bool :=
  r.pat &&& r'.mask == r'.pat &&& r.mask && r.guard.holds g && r'.guard.holds g

theorem Row.overlaps_of_matchesWord {g : Guards} {w : StepWord} {r r' : Row} (h : r.matchesWord g w = true)
    (h' : r'.matchesWord g w = true) : r.overlaps g r' = true := by
  simp only [Row.matchesWord, Row.overlaps, Bool.and_eq_true, beq_iff_eq] at *
  obtain ⟨hpat, hguard⟩ := h
  obtain ⟨hpat', hguard'⟩ := h'
  refine ⟨⟨?_, hguard⟩, hguard'⟩
  rw [← hpat, ← hpat']
  ac_rfl

/-- The pairs of rows that overlap, checked over all pairs of the map. -/
theorem rows_overlap_pairs (g : Guards) : ∀ i j : Fin rows.length, i < j → rows[i].overlaps g rows[j] = true →
    (i.val, j.val) = (0, 1) ∨ (i.val, j.val) = (17, 18) ∨ 3 ≤ i.val ∧ i.val ≤ 8 ∧ j.val = 9 := by
  obtain ⟨m, r⟩ := g
  cases m <;> cases r <;> decide

/-- Settles O20: a word that matched no row would be decoded to BAD_PHASE, and two rows that match one word agree on
their common fixed bits, which leaves the listed pairs. -/
theorem rowsOverlapOnlyWhereTheOrderDecides : Obligations.RowsOverlapOnlyWhereTheOrderDecides := by
  refine ⟨fun g w => ?_, fun g w i j r r' hij hi hj hr hr' => ?_⟩
  · cases hfind : rows.find? (Row.matchesWord g w) with
    | some r => exact ⟨r, List.mem_of_find?_eq_some hfind, List.find?_some hfind⟩
    | none =>
      have hbad : decodeWord g tableOrigin w = .badPhase tableOrigin (wordByte w) := by simp [decodeWord, hfind]
      exact absurd hbad (decodeWord_ne_badPhase g tableOrigin w tableOrigin (wordByte w))
  · obtain ⟨hilt, rfl⟩ := List.getElem?_eq_some_iff.mp hi
    obtain ⟨hjlt, rfl⟩ := List.getElem?_eq_some_iff.mp hj
    exact rows_overlap_pairs g ⟨i, hilt⟩ ⟨j, hjlt⟩ hij (Row.overlaps_of_matchesWord hr hr')

/-- Settles O21: each of the fifteen words is the step word of a phase and a byte, and the lemma about the row of that
phase reads its operands. -/
theorem wordsOfTheMapAreDecodedAsItSays : Obligations.WordsOfTheMapAreDecodedAsItSays := fun _ _ o =>
  ⟨decodeWord_opening_flag _ o, decodeWord_opening_other _ o 0xF8#8 (by decide), decodeWord_addr _ o 0x07#8,
    decodeWord_control _ o 0x3F#8, decodeWord_control _ o 0xEF#8, decodeWord_control _ o 0x2D#8,
    decodeWord_len_legacy _ o 0x02#8 rfl, decodeWord_len_cont _ o 0x02#8 rfl rfl,
    decodeWord_len_final _ o 0x03#8 rfl rfl, decodeWord_len2 _ o 0x41#8, decodeWord_data_more _ o 0xF9#8 rfl,
    decodeWord_data_last _ o 0xF9#8 rfl, decodeWord_fcs _ o 0xF9#8, decodeWord_close_flag _ o,
    decodeWord_close_other _ o 0x00#8 (by decide)⟩

end Sys2Proof
end

section
/-! SUPPORT. What a bank makes of a byte, said once as a relation of the byte, the length mode and the bank alone, with
the event it offers: the map of R53 without its encoding.  A step is this relation on the bank of its direction. -/

namespace Sys2Proof.Machine

/-- A bank that enters the frame body with a length (R71). -/
def bodyBank (len : BitVec 15) (bk : Bank) : Bank :=
  { bk with remainingLength := len, phase := if len = 0 then .fcs else .data }

/-- Under the length mode `m` the bank `bk` takes the byte `b`, becomes `bk'` and offers the event `p`: one constructor
for each case of R53, the six recognising rows in one. -/
inductive TakesByte (m : LenMode) (bk : Bank) (b : Byte) : Bank → Payload → Prop where
  | openFlag (hp : bk.phase = .opening) (hb : b = flagByte) : TakesByte m bk b { bk with phase := .addr } .openFlag
  | openResync (hp : bk.phase = .opening) (hb : b ≠ flagByte) : TakesByte m bk b openBank (.resync b)
  | addr (hp : bk.phase = .addr) :
    TakesByte m bk b { bk with dlc := dlcField b, phase := .control } (.addressByte (dlcField b))
  | recognised {ft : FrameType} (hp : bk.phase = .control) (hc : ctlDecode b = some ft) :
    TakesByte m bk b { bk with frameType := ft, phase := .len } (.controlByte ft)
  | unrecognised (hp : bk.phase = .control) (hc : ctlDecode b = none) : TakesByte m bk b openBank (.resync b)
  | wholeLength (hp : bk.phase = .len) (hm : m = .legacyA ∨ b.toNat % 2 = 1) :
    TakesByte m bk b (bodyBank (shortLength (shortField b)) bk) (.length (shortLength (shortField b)) false)
  | lowPart (hp : bk.phase = .len) (hm : m = .extendedB) (hb : b.toNat % 2 = 0) :
    TakesByte m bk b { bk with partialLengthLow := shortField b, phase := .len2 }
      (.length (partialLengthValue (shortField b)) true)
  | highPart (hp : bk.phase = .len2) :
    TakesByte m bk b (bodyBank (extendedLength b bk.partialLengthLow) bk)
      (.length (extendedLength b bk.partialLengthLow) false)
  | dataMore (hp : bk.phase = .data) (hr : 1 < bk.remainingLength.toNat) :
    TakesByte m bk b { bk with remainingLength := bk.remainingLength - 1 } (.dataByte bk.dlc b)
  | dataLast (hp : bk.phase = .data) (hr : bk.remainingLength.toNat ≤ 1) :
    TakesByte m bk b { bk with phase := .fcs } (.dataByte bk.dlc b)
  | fcs (hp : bk.phase = .fcs) : TakesByte m bk b { bk with phase := .close } (.checksum b)
  | closeFlag (hp : bk.phase = .close) (hb : b = flagByte) : TakesByte m bk b openBank .closeFlag
  | closeResync (hp : bk.phase = .close) (hb : b ≠ flagByte) : TakesByte m bk b openBank (.resync b)

/-- Every bank takes every byte. -/
theorem exists_takesByte (m : LenMode) (bk : Bank) (b : Byte) : ∃ bk' p, TakesByte m bk b bk' p := by
  cases hp : bk.phase with
  | opening =>
    by_cases hb : b = flagByte
    · exact ⟨_, _, .openFlag hp hb⟩
    · exact ⟨_, _, .openResync hp hb⟩
  | addr => exact ⟨_, _, .addr hp⟩
  | control =>
    cases hc : ctlDecode b with
    | some ft => exact ⟨_, _, .recognised hp hc⟩
    | none => exact ⟨_, _, .unrecognised hp hc⟩
  | len =>
    by_cases hm : m = .legacyA ∨ b.toNat % 2 = 1
    · exact ⟨_, _, .wholeLength hp hm⟩
    · obtain ⟨hm, hb⟩ := not_or.mp hm
      exact ⟨_, _, .lowPart hp (by cases m <;> simp_all) (Nat.mod_two_ne_one.mp hb)⟩
  | len2 => exact ⟨_, _, .highPart hp⟩
  | data =>
    rcases lt_or_ge 1 bk.remainingLength.toNat with hr | hr
    · exact ⟨_, _, .dataMore hp hr⟩
    · exact ⟨_, _, .dataLast hp hr⟩
  | fcs => exact ⟨_, _, .fcs hp⟩
  | close =>
    by_cases hb : b = flagByte
    · exact ⟨_, _, .closeFlag hp hb⟩
    · exact ⟨_, _, .closeResync hp hb⟩

/-! ## The step of a byte -/

/-- The state after a byte of origin `o` whose bank becomes `bk` and offers `p`. -/
def afterByte (o : Origin) (bk : Bank) (p : Payload) (s : State) : State :=
  { s.setBank o.dir bk with output := s.output ++ emitted s.cfg o p }

section
variable (o : Origin) (bk : Bank) (p : Payload) (s : State)

@[simp] theorem afterByte_bank : (afterByte o bk p s).bank o.dir = bk :=
  (output_bank _ _ _).trans (setBank_bank _ _ _)
@[simp] theorem afterByte_bank_other : (afterByte o bk p s).bank o.dir.other = s.bank o.dir.other :=
  (output_bank _ _ _).trans (setBank_bank_other _ _ _)
@[simp] theorem afterByte_cfg : (afterByte o bk p s).cfg = s.cfg := by simp [afterByte]
@[simp] theorem afterByte_input : (afterByte o bk p s).input = s.input := by simp [afterByte]
@[simp] theorem afterByte_output : (afterByte o bk p s).output = s.output ++ emitted s.cfg o p := rfl

end

/-- A recognised type's row stores the type, goes on to LEN and offers ControlByte. -/
theorem afterRule_controlInstr (o : Origin) {b : Byte} {ft : FrameType} (hc : ctlDecode b = some ft) (s : State) :
    afterRule (controlInstr o b (some ft)) s =
      afterByte o { s.bank o.dir with frameType := ft, phase := .len } (.controlByte ft) s := by
  cases ft with
  | none => exact absurd hc (ctlDecode_ne_none b)
  | _ => rfl

/-- A byte is decoded from the step word of its bank's phase. -/
theorem decodeEvent_byte {s : State} {o : Origin} {b : Byte} {q : Phase} (hp : (s.bank o.dir).phase = q) :
    decodeEvent s (.byte o b) = decodeWord (s.guards o.dir) o (stepWord q b) := by
  rw [decodeEvent, hp]

/-- What a bank makes of a byte is what the row of the byte's step word does. -/
theorem TakesByte.afterRule_decodeEvent {s : State} {o : Origin} {b : Byte} {bk' : Bank} {p : Payload}
    (h : TakesByte s.cfg.lenMode (s.bank o.dir) b bk' p) :
    afterRule (decodeEvent s (.byte o b)) s = afterByte o bk' p s := by
  cases h with
  | openFlag hp hb => rw [decodeEvent_byte hp, hb, decodeWord_opening_flag]; rfl
  | openResync hp hb => rw [decodeEvent_byte hp, decodeWord_opening_other _ _ _ hb]; rfl
  | addr hp => rw [decodeEvent_byte hp, decodeWord_addr]; rfl
  | recognised hp hc => rw [decodeEvent_byte hp, decodeWord_control, hc, afterRule_controlInstr o hc]
  | unrecognised hp hc => rw [decodeEvent_byte hp, decodeWord_control, hc]; rfl
  | wholeLength hp hm =>
    rw [decodeEvent_byte hp]
    cases hmode : s.cfg.lenMode with
    | legacyA => rw [decodeWord_len_legacy _ _ _ hmode]; rfl
    | extendedB => rw [decodeWord_len_final _ _ _ hmode (by simpa [hmode] using hm)]; rfl
  | lowPart hp hm hb => rw [decodeEvent_byte hp, decodeWord_len_cont _ _ _ hm hb]; rfl
  | highPart hp => rw [decodeEvent_byte hp, decodeWord_len2]; rfl
  | dataMore hp hr => rw [decodeEvent_byte hp, decodeWord_data_more _ _ _ (guards_more_eq_true hr)]; rfl
  | dataLast hp hr => rw [decodeEvent_byte hp, decodeWord_data_last _ _ _ (guards_more_eq_false hr)]; rfl
  | fcs hp => rw [decodeEvent_byte hp, decodeWord_fcs]; rfl
  | closeFlag hp hb => rw [decodeEvent_byte hp, hb, decodeWord_close_flag]; rfl
  | closeResync hp hb => rw [decodeEvent_byte hp, decodeWord_close_other _ _ _ hb]; rfl

/-- A byte that its bank takes is taken by the step. -/
theorem TakesByte.step_eq {s : State} {o : Origin} {b : Byte} {rest : List InEvent} {bk' : Bank} {p : Payload}
    (h : TakesByte s.cfg.lenMode (s.bank o.dir) b bk' p) (hin : s.input = .byte o b :: rest) :
    step s = .next (afterByte o bk' p { s with input := rest }) := by
  have hbank := input_bank o.dir s rest
  have hdec : decodeEvent s (.byte o b) = decodeEvent { s with input := rest } (.byte o b) :=
    decodeEvent_congr rfl hbank.symm
  rw [step_eq_afterRule hin, hdec, TakesByte.afterRule_decodeEvent (by rwa [hbank])]

/-- What the step of a byte can do: its bank takes the byte, the event offered passes the debug gate or not, and nothing
else changes. -/
theorem step_byte {s t : State} {o : Origin} {b : Byte} {rest : List InEvent} (hin : s.input = .byte o b :: rest)
    (hstep : step s = .next t) :
    ∃ p, TakesByte s.cfg.lenMode (s.bank o.dir) b (t.bank o.dir) p ∧ t.bank o.dir.other = s.bank o.dir.other ∧
      t.cfg = s.cfg ∧ t.input = rest ∧ t.output = s.output ++ emitted s.cfg o p := by
  obtain ⟨bk', p, h⟩ := exists_takesByte s.cfg.lenMode (s.bank o.dir) b
  rw [h.step_eq hin] at hstep
  obtain rfl := Host.Outcome.next.inj hstep
  exact ⟨p, by simpa using h, by simp⟩

/-- An event of kind OTHER is only taken from the input. -/
theorem step_other {s : State} {o : Origin} {rest : List InEvent} (hin : s.input = .other o :: rest) :
    step s = .next { s with input := rest } := step_event hin

/-- What any step can do: nothing, take an event of kind OTHER, or take a byte. -/
theorem step_cases {s t : State} (hstep : step s = .next t) :
    (s.input = [] ∧ t = s) ∨ (∃ o rest, s.input = .other o :: rest ∧ t = { s with input := rest }) ∨
    ∃ o b rest p, s.input = .byte o b :: rest ∧ TakesByte s.cfg.lenMode (s.bank o.dir) b (t.bank o.dir) p ∧
      t.bank o.dir.other = s.bank o.dir.other ∧ t.cfg = s.cfg ∧ t.input = rest ∧
      t.output = s.output ++ emitted s.cfg o p := by
  match hin : s.input with
  | [] =>
    rw [step_idle hin] at hstep
    exact .inl ⟨rfl, (Host.Outcome.next.inj hstep).symm⟩
  | .other o :: rest =>
    rw [step_other hin] at hstep
    exact .inr (.inl ⟨o, rest, rfl, (Host.Outcome.next.inj hstep).symm⟩)
  | .byte o b :: rest =>
    obtain ⟨p, heffect⟩ := step_byte hin hstep
    exact .inr (.inr ⟨o, b, rest, p, rfl, heffect⟩)

/-- Every step answers next. -/
theorem exists_step (s : State) : ∃ t, step s = .next t := by
  cases hin : s.input with
  | nil => exact ⟨s, step_idle hin⟩
  | cons ev rest => exact ⟨_, step_eq_afterRule hin⟩

end Sys2Proof.Machine
end

section
/-! SUPPORT. The reachable-state invariant, phase by phase, and that every byte keeps it (10_state.md sections 2
and 7). -/

namespace Sys2Proof.Machine

/-- What the invariant of R35 and R22 says of the other fields of a bank in each phase. -/
def Bank.InvInPhase (m : LenMode) (bk : Bank) : Phase → Prop
  | .opening | .addr => bk.frameType = .none ∧ bk.dlc = 0 ∧ bk.remainingLength = 0 ∧ bk.partialLengthLow = 0
  | .control => bk.frameType = .none ∧ bk.remainingLength = 0 ∧ bk.partialLengthLow = 0
  | .len => bk.frameType ≠ .none ∧ bk.remainingLength = 0 ∧ bk.partialLengthLow = 0
  | .len2 => bk.frameType ≠ .none ∧ bk.remainingLength = 0 ∧ m = .extendedB
  | .data => bk.frameType ≠ .none ∧ 1 ≤ bk.remainingLength.toNat ∧
      (m = .legacyA → bk.remainingLength.toNat ≤ 127 ∧ bk.partialLengthLow = 0)
  | .fcs | .close => bk.frameType ≠ .none ∧ bk.remainingLength.toNat ≤ 1 ∧ (m = .legacyA → bk.partialLengthLow = 0)

section
variable {m : LenMode} {bk : Bank}

theorem Bank.Inv.inPhase {q : Phase} (h : bk.Inv m) (hp : bk.phase = q) : bk.InvInPhase m q := by
  obtain ⟨hpending, hlegacy, hlen2, htyped, hdlc, hremaining, hdone, hlow, hlowLegacy⟩ := h
  subst hp
  cases hp : bk.phase <;> simp_all [Bank.InvInPhase, Phase.typed]

theorem Bank.inv_of_inPhase (h : bk.InvInPhase m bk.phase) : bk.Inv m := by
  cases hp : bk.phase <;> rw [hp] at h <;> constructor <;> simp_all [Bank.InvInPhase, Phase.typed]

theorem openBank_inv (m : LenMode) : openBank.Inv m :=
  Bank.inv_of_inPhase ⟨rfl, rfl, rfl, rfl⟩

/-- A one-byte length is the number in its 7 bits. -/
theorem shortLength_toNat (length : BitVec 7) : (shortLength length).toNat = length.toNat :=
  BitVec.toNat_setWidth_of_le (by decide)

/-- Entering the body keeps the invariant when the type is known and, under LEGACY_A, the length has one byte. -/
theorem bodyBank_inv {len : BitVec 15} (htype : bk.frameType ≠ .none)
    (hlegacy : m = .legacyA → len.toNat ≤ 127 ∧ bk.partialLengthLow = 0) : (bodyBank len bk).Inv m := by
  apply Bank.inv_of_inPhase
  by_cases hlen : len = 0
  · rw [show (bodyBank len bk).phase = .fcs from if_pos hlen]
    exact ⟨htype, by simp [bodyBank, hlen], fun hm => (hlegacy hm).2⟩
  · rw [show (bodyBank len bk).phase = .data from if_neg hlen]
    have hpos : len.toNat ≠ 0 := fun h => hlen (BitVec.eq_of_toNat_eq h)
    exact ⟨htype, Nat.one_le_iff_ne_zero.mpr hpos, hlegacy⟩

/-- A byte keeps the invariant of the bank that takes it. -/
theorem TakesByte.inv {bk' : Bank} {b : Byte} {p : Payload} (h : TakesByte m bk b bk' p) (hinv : bk.Inv m) :
    bk'.Inv m := by
  cases h with
  | openFlag hp hb => exact Bank.inv_of_inPhase (hinv.inPhase hp)
  | openResync hp hb => exact openBank_inv m
  | addr hp =>
    obtain ⟨htype, -, hremaining, hlow⟩ := hinv.inPhase hp
    exact Bank.inv_of_inPhase ⟨htype, hremaining, hlow⟩
  | recognised hp hc =>
    obtain ⟨-, hremaining, hlow⟩ := hinv.inPhase hp
    exact Bank.inv_of_inPhase ⟨fun h => ctlDecode_ne_none b (h ▸ hc), hremaining, hlow⟩
  | unrecognised hp hc => exact openBank_inv m
  | wholeLength hp hm =>
    obtain ⟨htype, -, hlow⟩ := hinv.inPhase hp
    exact bodyBank_inv htype fun _ => ⟨by rw [shortLength_toNat]; omega, hlow⟩
  | lowPart hp hm hb =>
    obtain ⟨htype, hremaining, -⟩ := hinv.inPhase hp
    exact Bank.inv_of_inPhase ⟨htype, hremaining, hm⟩
  | highPart hp =>
    obtain ⟨htype, -, hm⟩ := hinv.inPhase hp
    exact bodyBank_inv htype fun hlegacy => absurd (hm.symm.trans hlegacy) nofun
  | dataMore hp hr =>
    obtain ⟨htype, -, hlegacy⟩ := hinv.inPhase hp
    have hdec := toNat_sub_one_add_one hr.le
    apply Bank.inv_of_inPhase
    rw [hp]
    refine ⟨htype, by simp only; omega, fun hm => ?_⟩
    obtain ⟨hbound, hlow⟩ := hlegacy hm
    exact ⟨by simp only; omega, hlow⟩
  | dataLast hp hr =>
    obtain ⟨htype, -, hlegacy⟩ := hinv.inPhase hp
    exact Bank.inv_of_inPhase ⟨htype, hr, fun hm => (hlegacy hm).2⟩
  | fcs hp => exact Bank.inv_of_inPhase (hinv.inPhase hp)
  | closeFlag hp hb => exact openBank_inv m
  | closeResync hp hb => exact openBank_inv m

end

/-- Settles O29: the bank of the byte's direction keeps the invariant by `TakesByte.inv`; everything else a step leaves
as it was. -/
theorem bankInvariantIsKeptByEveryStep : Obligations.BankInvariantIsKeptByEveryStep := by
  intro s t hinv hstep d
  rcases step_cases hstep with ⟨-, rfl⟩ | ⟨o, rest, -, rfl⟩ | ⟨o, b, rest, p, -, htakes, hother, hcfg, -, -⟩
  · exact hinv d
  · simpa using hinv d
  · rw [hcfg]
    by_cases hd : d = o.dir
    · rw [hd]; exact htakes.inv (hinv o.dir)
    · rw [Dir.eq_other_of_ne hd, hother]; exact hinv o.dir.other

end Sys2Proof.Machine
end

section
/-! SUPPORT. What the step of a byte emits and where the phase goes, each from the cases of `TakesByte`
(44_demux_output.md, 60_exceptions.md, 30_encoding.md section 2). -/

namespace Sys2Proof.Machine

/-! ## The event a bank offers -/

section
variable {m : LenMode} {bk bk' : Bank} {b : Byte} {p : Payload}

/-- In DATA a bank offers the byte with its DLC. -/
theorem TakesByte.offers_dataByte (h : TakesByte m bk b bk' p) (hp : bk.phase = .data) : p = .dataByte bk.dlc b := by
  cases h with
  | dataMore | dataLast => rfl
  | _ => simp_all

/-- Outside DATA a bank offers a diagnostic event. -/
theorem TakesByte.offers_diagnostic (h : TakesByte m bk b bk' p) (hp : bk.phase ≠ .data) : isDiagnostic p = true := by
  cases h with
  | dataMore hdata | dataLast hdata => exact absurd hdata hp
  | _ => rfl

/-- The three causes of a resync (R93, R94). -/
theorem TakesByte.offers_resync_iff (h : TakesByte m bk b bk' p) :
    (∃ b', p = .resync b') ↔ bk.phase = .opening ∧ b ≠ flagByte ∨ bk.phase = .control ∧ ctlDecode b = none ∨
      bk.phase = .close ∧ b ≠ flagByte := by
  cases h <;> simp_all

/-- A resync reports the byte and returns to OPEN (R95). -/
theorem TakesByte.resync_effect {b' : Byte} (h : TakesByte m bk b bk' (.resync b')) :
    b' = b ∧ bk'.phase = .opening := by
  cases h <;> exact ⟨rfl, rfl⟩

/-- The body is entered in FCS or in DATA. -/
theorem bodyBank_phase (len : BitVec 15) (bk : Bank) :
    (bodyBank len bk).phase = .fcs ∨ (bodyBank len bk).phase = .data := by
  by_cases hlen : len = 0
  · exact .inl (if_pos hlen)
  · exact .inr (if_neg hlen)

/-- A byte moves the phase along an edge of the graph of R54. -/
theorem TakesByte.edge (h : TakesByte m bk b bk' p) : bk.phase.edge m bk'.phase = true := by
  cases h with
  | wholeLength hp | highPart hp =>
    obtain hbody | hbody := bodyBank_phase _ bk <;> rw [hp, hbody] <;> rfl
  | lowPart hp hm => rw [hp, hm]; rfl
  | _ => simp_all [Phase.edge, openBank]

end

/-- Settles O33: the bank of the byte moves along an edge by `TakesByte.edge`, the other bank is not written, and an
event of kind OTHER writes neither. -/
theorem phasesMoveOnlyAlongTheGraph : Obligations.PhasesMoveOnlyAlongTheGraph := by
  refine ⟨fun s t o b rest hin hstep => ?_, fun s t o rest d hin hstep => ?_⟩
  · obtain ⟨p, htakes, hother, -⟩ := step_byte hin hstep
    exact ⟨htakes.edge, congrArg Bank.phase hother⟩
  · rw [step_other hin] at hstep
    obtain rfl := Host.Outcome.next.inj hstep
    simp

/-! ## The event that is added -/

/-- With debug on, every offered event is added. -/
theorem emitted_of_debug {cfg : Cfg} (h : cfg.debug = true) (o : Origin) (p : Payload) :
    emitted cfg o p = [complete o p] := by
  simp [emitted, passesGate, h]

/-- With debug off, no diagnostic event is added. -/
theorem emitted_of_not_debug {cfg : Cfg} (h : cfg.debug = false) (o : Origin) {p : Payload}
    (hp : isDiagnostic p = true) : emitted cfg o p = [] := by
  simp [emitted, passesGate, h, hp]

/-- What is added is the offered event, completed, and only if it passes the debug gate. -/
theorem mem_emitted_iff {cfg : Cfg} {o : Origin} {p : Payload} {ev : OutEvent} :
    ev ∈ emitted cfg o p ↔ passesGate cfg p = true ∧ ev = complete o p := by
  cases hgate : passesGate cfg p <;> simp [emitted, hgate]

/-- Settles O24: with debug on the one event added is the offered one, which is a Resync in the three causes. -/
theorem resyncHasExactlyThreeCauses : Obligations.ResyncHasExactlyThreeCauses := by
  intro s t o b rest hin hdebug hstep
  obtain ⟨p, htakes, -, -, -, hout⟩ := step_byte hin hstep
  have hadded : ∀ k b', t.output = s.output ++ [⟨o, k, .resync b'⟩] ↔ dirIndex o.dir = k ∧ p = .resync b' := by
    intro k b'
    rw [hout, emitted_of_debug hdebug, List.append_cancel_left_eq, List.singleton_inj, complete, OutEvent.mk.injEq]
    constructor
    · rintro ⟨-, rfl, rfl⟩; exact ⟨rfl, rfl⟩
    · rintro ⟨rfl, rfl⟩; exact ⟨rfl, rfl, rfl⟩
  simp only [hadded]
  refine ⟨?_, ?_⟩
  · simpa using htakes.offers_resync_iff
  · rintro k b' ⟨-, rfl⟩
    exact htakes.resync_effect

/-- Settles O25: the step adds the offered event if it passes the debug gate, and DataByte alone always does. -/
theorem eachStepEmitsAtMostOneEvent : Obligations.EachStepEmitsAtMostOneEvent := by
  refine ⟨fun s t o b rest hin hstep => ?_, fun s t o rest hin hstep => ?_⟩
  · obtain ⟨p, htakes, -, -, -, hout⟩ := step_byte hin hstep
    refine ⟨emitted s.cfg o p, hout, fun ev hev => ?_, fun hdebug => ?_, fun _ hdata => ?_, fun hdebug hdata => ?_⟩
    · obtain ⟨-, rfl⟩ := mem_emitted_iff.mp hev; rfl
    · rw [emitted_of_debug hdebug]; rfl
    · rw [htakes.offers_dataByte hdata, emitted_dataByte]; exact ⟨_, rfl⟩
    · exact emitted_of_not_debug hdebug o (htakes.offers_diagnostic hdata)
  · rw [step_other hin] at hstep
    obtain rfl := Host.Outcome.next.inj hstep
    rfl

/-! ## Routing keys and well-formed events -/

/-- The direction index in numbers (R12, decision D7). -/
theorem dirIndex_eq_ite (d : Dir) : dirIndex d = if d = .rx then 0 else 1 := by cases d <;> rfl

/-- The key of a diagnostic event is the direction index (R87). -/
theorem keyOf_diagnostic (d : Dir) {p : Payload} (hp : isDiagnostic p = true) : keyOf d p = dirIndex d := by
  cases p with
  | dataByte => cases hp
  | _ => rfl

/-- Settles O26: the event added is the offered one with the key of its kind. -/
theorem everyEventCarriesItsRoutingKey : Obligations.EveryEventCarriesItsRoutingKey := by
  intro s t o b rest ev hin hstep hadded
  obtain ⟨p, htakes, -, -, -, hout⟩ := step_byte hin hstep
  have hemitted : emitted s.cfg o p = [ev] := List.append_cancel_left (hout.symm.trans hadded)
  obtain ⟨-, rfl⟩ := mem_emitted_iff.mp (hemitted ▸ List.mem_singleton_self ev)
  rw [← dirIndex_eq_ite]
  refine ⟨fun hdata => ?_, fun hdata => ?_⟩
  · rw [htakes.offers_dataByte hdata]; rfl
  · exact keyOf_diagnostic o.dir (htakes.offers_diagnostic hdata)

/-- Settles O27: a data key is twice a number from 1 to 64, plus a direction index of at most 1. -/
theorem routingKeysNameOneChannelEach : Obligations.RoutingKeysNameOneChannelEach := by
  intro d dlc
  have hindex : ∀ e : Dir, dirIndex e ≤ 1 := fun e => by cases e <;> decide
  have hd := hindex d
  have hdlc := dlc.isLt
  unfold dataKey
  refine ⟨by omega, by omega, by omega, by omega, fun e => ?_⟩
  have he := hindex e
  omega

/-- An event that a bank offers and the debug gate lets through is well formed. -/
theorem TakesByte.complete_wellFormed {cfg : Cfg} {m : LenMode} {bk bk' : Bank} {b : Byte} {p : Payload}
    (h : TakesByte m bk b bk' p) (hgate : passesGate cfg p = true) (o : Origin) : (complete o p).wellFormed cfg := by
  refine ⟨fun hdiag => by simpa [passesGate, show isDiagnostic p = true from hdiag] using hgate, ?_⟩
  cases h with
  | recognised hp hc => exact ⟨fun hnone => ctlDecode_ne_none b (hnone ▸ hc), rfl⟩
  | wholeLength => exact ⟨nofun, rfl⟩
  | highPart => exact ⟨nofun, rfl⟩
  | lowPart => exact ⟨fun _ => by rw [partialLengthValue, ← shortLength, shortLength_toNat]; omega, rfl⟩
  | _ => rfl

/-- Settles O31: the events emitted before stay well formed under the same `CFG`, and the one a byte adds is by
`TakesByte.complete_wellFormed`. -/
theorem outputStaysWellFormed : Obligations.OutputStaysWellFormed := by
  intro s t hwf hstep
  rcases step_cases hstep with ⟨-, rfl⟩ | ⟨o, rest, -, rfl⟩ | ⟨o, b, rest, p, -, htakes, -, hcfg, -, hout⟩
  · exact hwf
  · exact hwf
  · intro ev hev
    rw [hcfg]
    rw [hout, List.mem_append] at hev
    rcases hev with hold | hnew
    · exact hwf ev hold
    · obtain ⟨hgate, rfl⟩ := mem_emitted_iff.mp hnew
      exact htakes.complete_wellFormed hgate o

end Sys2Proof.Machine
end

section
/-! SUPPORT. The remaining rows of the operation map: the resyncs and the closing flag, the length rows, BAD_PHASE, and
how a step decodes its event (40_open_addr.md to 43_data_fcs_close.md). -/

namespace Sys2Proof.Machine

/-! ## Rows that return to OPEN -/

/-- Settles O2: every step word in OPEN but the flag's takes row 2, and OPEN_RESYNC offers the diagnostic event
Resync. -/
theorem otherByteInOpenResyncs : Obligations.OtherByteInOpenResyncs :=
  ⟨fun o _ b hphase hb => selects_of_decodeWord hphase (decodeWord_opening_other _ o b hb),
    fun o b _ => exec_diagnostic_does (i := .openResync o b) rfl rfl⟩

/-- Settles O6: a step word in CONTROL without a frame type takes row 10, and CTRL_UNREC offers the diagnostic event
Resync. -/
theorem unrecognisedControlByteResyncs : Obligations.UnrecognisedControlByteResyncs :=
  ⟨fun o _ b hphase hc => selects_of_decodeWord hphase (by rw [decodeWord_control, hc]; rfl),
    fun o b _ => exec_diagnostic_does (i := .ctrlUnrec o b) rfl rfl⟩

/-- Settles O14: the flag's step word in CLOSE takes row 18, and CLOSE_FLAG offers the diagnostic event CloseFlag. -/
theorem flagInCloseEndsTheFrame : Obligations.FlagInCloseEndsTheFrame :=
  ⟨fun o _ hphase => selects_of_decodeWord hphase (decodeWord_close_flag _ o),
    fun o _ => exec_diagnostic_does (i := .closeFlag o) rfl rfl⟩

/-- Settles O15: every step word in CLOSE but the flag's takes row 19, and CLOSE_RESYNC offers the diagnostic event
Resync. -/
theorem otherByteInCloseResyncs : Obligations.OtherByteInCloseResyncs :=
  ⟨fun o _ b hphase hb => selects_of_decodeWord hphase (decodeWord_close_other _ o b hb),
    fun o b _ => exec_diagnostic_does (i := .closeResync o b) rfl rfl⟩

/-- Settles O16: every step word is decoded to a well-formed operation, which BAD_PHASE is not, and BAD_PHASE offers no
event. -/
theorem badPhaseIsUnreachableAndReturnsToOpen : Obligations.BadPhaseIsUnreachableAndReturnsToOpen :=
  ⟨decodeWord_ne_badPhase, fun o b s => ⟨_, exec_eq_afterRule (.badPhase o b) s, afterRule_does rfl⟩⟩

/-! ## Length rows -/

/-- Entering the body, with the condition on the length as a number. -/
theorem bodyBank_eq_toNat (len : BitVec 15) (bk : Bank) :
    bodyBank len bk = { bk with remainingLength := len, phase := if len.toNat = 0 then .fcs else .data } := by
  have hzero : len = 0 ↔ len.toNat = 0 := BitVec.toNat_inj.symm
  simp only [bodyBank, hzero]

/-- A row that completes a length reports it and enters the body with it. -/
theorem exec_wholeLength_does {i : Instr} {s : State} {len : BitVec 15}
    (hbank : ruleBank i (s.bank i.origin.dir) = bodyBank len (s.bank i.origin.dir))
    (hoffer : ruleOffer i (s.bank i.origin.dir) = some (.length len false)) :
    ∃ t, exec i s = .next t ∧
      Does i.origin { s.bank i.origin.dir with remainingLength := len, phase := if len.toNat = 0 then .fcs else .data }
        (ifDebug s.cfg (.length len false)) s t := by
  rw [← bodyBank_eq_toNat, ← hbank]
  exact exec_diagnostic_does hoffer rfl

/-- A two-byte length is its upper byte times 128 plus its low part (R39). -/
theorem extendedLength_toNat (high : Byte) (low : BitVec 7) :
    (extendedLength high low).toNat = high.toNat * 128 + low.toNat := by
  rw [extendedLength, BitVec.toNat_append, ← Nat.shiftLeft_add_eq_or_of_lt low.isLt, Nat.shiftLeft_eq]

/-- Settles O7: in LEN the length mode and bit 0 select row 11 or 12 with the length field, which is the byte divided by
2, and both rows offer the diagnostic event Length and enter the body with that length. -/
theorem oneByteLengthEntersTheBody : Obligations.OneByteLengthEntersTheBody := by
  refine ⟨fun o s b hphase hmode => ?_, fun o s b hphase hmode hodd => ?_, fun o length lsb s i hi => ?_⟩
  · exact ⟨shortField b, finalMarker b, shortField_toNat b,
      selects_of_decodeWord hphase (decodeWord_len_legacy _ o b hmode)⟩
  · exact ⟨shortField b, shortField_toNat b, selects_of_decodeWord hphase (decodeWord_len_final _ o b hmode hodd)⟩
  · obtain ⟨rfl, hbank, hoffer⟩ : i.origin = o ∧ (∀ bk, ruleBank i bk = bodyBank (shortLength length) bk) ∧
        ∀ bk, ruleOffer i bk = some (.length (shortLength length) false) := by
      simp only [List.mem_cons, List.not_mem_nil, or_false] at hi
      obtain rfl | rfl := hi <;> exact ⟨rfl, fun _ => rfl, fun _ => rfl⟩
    obtain ⟨t, hexec, hdoes⟩ := exec_wholeLength_does (s := s) (hbank _) (hoffer _)
    exact ⟨t, shortLength length, hexec, shortLength_toNat length, by simpa only [shortLength_toNat] using hdoes⟩

/-- Settles O8: under EXTENDED_B a clear bit 0 selects row 13 with the length field, which is the byte divided by 2, and
LEN_B_CONT offers a diagnostic partial Length event. -/
theorem firstOfTwoLengthBytesGivesTheLowPart : Obligations.FirstOfTwoLengthBytesGivesTheLowPart := by
  refine ⟨fun o s b hphase hmode heven => ?_, fun o low s => ?_⟩
  · exact ⟨shortField b, shortField_toNat b, selects_of_decodeWord hphase (decodeWord_len_cont _ o b hmode heven)⟩
  · obtain ⟨t, hexec, hdoes⟩ := exec_diagnostic_does (i := .lenBCont o low) (s := s) rfl rfl
    exact ⟨t, partialLengthValue low, hexec, hdoes⟩

/-- Settles O9: with debug on the one event that LEN_B_CONT offers is added, with the low part as its value. -/
theorem partialLengthEventCarriesTheLowPart : Obligations.PartialLengthEventCarriesTheLowPart := by
  intro o low s hdebug
  refine ⟨_, partialLengthValue low, dirIndex o.dir, exec_eq_afterRule _ s, shortLength_toNat low, ?_⟩
  rw [afterRule_output]
  exact congrArg (s.output ++ ·) (emitted_of_debug hdebug o _)

/-- Settles O10: every step word in LEN2 takes row 14, and LEN2 offers the diagnostic event Length and enters the body
with `extendedLength`. -/
theorem secondLengthByteCompletesTheLength : Obligations.SecondLengthByteCompletesTheLength := by
  refine ⟨fun o s b hphase => selects_of_decodeWord hphase (decodeWord_len2 _ o b), fun o high s => ?_⟩
  obtain ⟨t, hexec, hdoes⟩ := exec_wholeLength_does (i := .len2 o high) (s := s) rfl rfl
  exact ⟨t, _, hexec, extendedLength_toNat high _, hdoes⟩

/-! ## Decoding at the input -/

/-- Settles O22: one step word, or none for an event of kind OTHER, is decoded just as the step decodes its event. -/
theorem aStepAppliesTheDecodedOperation : Obligations.AStepAppliesTheDecodedOperation := by
  refine ⟨fun s o b rest i hin hdec => ?_, fun s o rest i hin hdec => ?_⟩
  · obtain rfl := Except.ok.inj hdec
    exact step_event hin
  · obtain rfl := Except.ok.inj hdec
    exact step_event hin

/-- Settles O23: without an event, `fetch` gives no operation to apply. -/
theorem noEventNoChange : Obligations.NoEventNoChange := fun _ => step_idle

end Sys2Proof.Machine
end

section
/-! SUPPORT. Runs of the whole machine: none gets stuck or reaches `CFG`, and two changes of the state commute with
them, turning debug off and renaming positions (10_state.md section 4, 30_encoding.md section 1). -/

namespace Sys2Proof.Machine

/-! ## What every run keeps -/

/-- Every run answers next. -/
theorem exists_runSteps (k : Nat) (s : State) : ∃ t, runSteps k s = .next t := by
  induction k generalizing s with
  | zero => exact ⟨s, rfl⟩
  | succ k ih =>
    obtain ⟨u, hstep⟩ := exists_step s
    rw [runSteps_succ hstep]
    exact ih u

/-- A step keeps `CFG` and takes at most the oldest event. -/
theorem step_cfg_input {s t : State} (hstep : step s = .next t) : t.cfg = s.cfg ∧ t.input = s.input.drop 1 := by
  rcases step_cases hstep with ⟨hin, rfl⟩ | ⟨o, rest, hin, rfl⟩ | ⟨o, b, rest, p, hin, -, -, hcfg, hrest, -⟩
  · simp [hin]
  · simp [hin]
  · simp [hin, hcfg, hrest]

/-- Settles O36: by induction on the number of steps, each of which keeps `CFG` and takes at most one event. -/
theorem noInputReachesTheConfiguration : Obligations.NoInputReachesTheConfiguration := by
  intro k
  induction k with
  | zero =>
    intro s t hrun
    obtain rfl := Host.Outcome.next.inj hrun
    exact ⟨rfl, rfl⟩
  | succ k ih =>
    intro s t hrun
    obtain ⟨u, hstep⟩ := exists_step s
    obtain ⟨hcfg, hinput⟩ := step_cfg_input hstep
    obtain ⟨hcfg', hinput'⟩ := ih u t (runSteps_succ hstep k ▸ hrun)
    exact ⟨hcfg'.trans hcfg, by rw [hinput', hinput, List.drop_drop, Nat.add_comm]⟩

/-! ## Turning debug off -/

section
variable (s : State)

@[simp] theorem withoutDebug_bank (d : Dir) : s.withoutDebug.bank d = s.bank d := by cases d <;> rfl

/-- With debug off, of what is emitted with the setting of `cfg` only DataByte events are. -/
theorem emitted_debug_off (cfg : Cfg) (o : Origin) (p : Payload) :
    emitted { cfg with debug := false } o p = (emitted cfg o p).filter OutEvent.isData := by
  cases hdiag : isDiagnostic p <;> cases hdebug : cfg.debug <;>
    simp [emitted, passesGate, OutEvent.isData, complete, hdiag, hdebug]

theorem afterByte_withoutDebug (o : Origin) (bk : Bank) (p : Payload) :
    afterByte o bk p s.withoutDebug = (afterByte o bk p s).withoutDebug := by
  have hout : s.withoutDebug.output ++ emitted { s.cfg with debug := false } o p =
      (afterByte o bk p s).withoutDebug.output := by
    rw [emitted_debug_off]
    exact (List.filter_append _ _).symm
  obtain ⟨dir, start, stop⟩ := o
  cases dir <;> exact State.ext_of_bank (fun d => by cases d <;> rfl) rfl rfl hout

theorem step_withoutDebug : step s.withoutDebug = mapNext State.withoutDebug (step s) := by
  match hin : s.input with
  | [] => rw [step_idle hin, step_idle (s := s.withoutDebug) hin, mapNext]
  | .other o :: rest => rw [step_other hin, step_other (s := s.withoutDebug) hin, mapNext]; rfl
  | .byte o b :: rest =>
    obtain ⟨bk', p, htakes⟩ := exists_takesByte s.cfg.lenMode (s.bank o.dir) b
    have htakes' : TakesByte s.withoutDebug.cfg.lenMode (s.withoutDebug.bank o.dir) b bk' p := by
      rwa [withoutDebug_bank]
    rw [htakes.step_eq hin, htakes'.step_eq hin, mapNext, ← afterByte_withoutDebug]
    rfl

end

/-- Settles O38: turning debug off commutes with every step, so it commutes with every run. -/
theorem debugOnlyAddsDiagnosticEvents : Obligations.DebugOnlyAddsDiagnosticEvents := by
  intro k s t hrun
  rw [runSteps_commutes step_withoutDebug, hrun, mapNext]

/-! ## Renaming positions -/

section
variable (f : Pos → Pos) (s : State)

@[simp] theorem rename_bank (d : Dir) : (s.rename f).bank d = s.bank d := by cases d <;> rfl

/-- The name of a position is read neither by the debug gate nor by the routing key. -/
theorem emitted_rename (cfg : Cfg) (o : Origin) (p : Payload) :
    emitted cfg (o.rename f) p = (emitted cfg o p).map (fun ev => { ev with origin := ev.origin.rename f }) := by
  cases hgate : passesGate cfg p <;> simp [emitted, hgate, complete, Origin.rename]

theorem afterByte_rename (o : Origin) (bk : Bank) (p : Payload) :
    afterByte (o.rename f) bk p (s.rename f) = (afterByte o bk p s).rename f := by
  have hout : (s.rename f).output ++ emitted s.cfg (o.rename f) p = ((afterByte o bk p s).rename f).output := by
    rw [emitted_rename]
    exact List.map_append.symm
  obtain ⟨dir, start, stop⟩ := o
  cases dir <;> exact State.ext_of_bank (fun d => by cases d <;> rfl) rfl rfl hout

theorem step_rename : step (s.rename f) = mapNext (State.rename f) (step s) := by
  have hmap : (s.rename f).input = s.input.map (InEvent.rename f) := rfl
  match hin : s.input with
  | [] =>
    rw [hin] at hmap
    rw [step_idle hin, step_idle hmap, mapNext]
  | .other o :: rest =>
    rw [hin] at hmap
    rw [step_other hin, step_other hmap, mapNext]
    rfl
  | .byte o b :: rest =>
    rw [hin] at hmap
    obtain ⟨bk', p, htakes⟩ := exists_takesByte s.cfg.lenMode (s.bank o.dir) b
    have htakes' : TakesByte (s.rename f).cfg.lenMode ((s.rename f).bank (o.rename f).dir) b bk' p := by
      rwa [rename_bank]
    rw [htakes.step_eq hin, htakes'.step_eq hmap, mapNext, ← afterByte_rename]
    rfl

end

/-- Settles O40: renaming positions commutes with every step, so it commutes with every run. -/
theorem positionsAreOnlyCopied : Obligations.PositionsAreOnlyCopied :=
  fun f k s => runSteps_commutes (step_rename f) k s

end Sys2Proof.Machine
end

section
/-! SUPPORT. What a bank makes of the bytes of its direction, one after the other, and that a run is this for each
direction: for whole frames (95_test_vectors.md), payload streams and isolation (20_memory.md section 4). -/

namespace Sys2Proof.Machine

/-! ## The bytes of one direction -/

/-- Under the length mode `m` the bank `bk` takes the bytes `bs` in order, becomes `bk'` and offers the events `ps`, one
for each byte. -/
inductive TakesBytes (m : LenMode) : Bank → List Byte → Bank → List Payload → Prop where
  | nil {bk : Bank} : TakesBytes m bk [] bk []
  | cons {bk bk' bk'' : Bank} {b : Byte} {bs : List Byte} {p : Payload} {ps : List Payload}
    (h : TakesByte m bk b bk' p) (hs : TakesBytes m bk' bs bk'' ps) : TakesBytes m bk (b :: bs) bk'' (p :: ps)

section
variable {m : LenMode} {bk bk' bk'' : Bank} {bs bs' : List Byte} {ps ps' : List Payload}

theorem TakesBytes.append (h : TakesBytes m bk bs bk' ps) (h' : TakesBytes m bk' bs' bk'' ps') :
    TakesBytes m bk (bs ++ bs') bk'' (ps ++ ps') := by
  induction h with
  | nil => exact h'
  | cons hb _ ih => exact .cons hb (ih h')

/-- A state with debug on and the bank `bk` in direction RX, where every offered event is seen. -/
def probeState (m : LenMode) (bk : Bank) : State := { State.reset with rx := bk, cfg := ⟨true, .hex, m⟩ }

/-- What a bank makes of a byte is determined: it is what one operation leaves in the bank and the output of
`probeState`. -/
theorem TakesByte.unique {b : Byte} {p p' : Payload} (h : TakesByte m bk b bk' p) (h' : TakesByte m bk b bk'' p') :
    bk' = bk'' ∧ p = p' := by
  have hafter : afterByte tableOrigin bk' p (probeState m bk) = afterByte tableOrigin bk'' p' (probeState m bk) :=
    (TakesByte.afterRule_decodeEvent h).symm.trans (TakesByte.afterRule_decodeEvent h')
  have hout : emitted _ tableOrigin p = emitted _ tableOrigin p' := congrArg State.output hafter
  rw [emitted_of_debug rfl, emitted_of_debug rfl, List.singleton_inj] at hout
  exact ⟨congrArg State.rx hafter, congrArg OutEvent.payload hout⟩

theorem TakesBytes.unique (h : TakesBytes m bk bs bk' ps) (h' : TakesBytes m bk bs bk'' ps') :
    bk' = bk'' ∧ ps = ps' := by
  induction h generalizing ps' with
  | nil => cases h'; exact ⟨rfl, rfl⟩
  | cons hb _ ih =>
    cases h' with
    | cons hb' hs' =>
      obtain ⟨rfl, rfl⟩ := hb.unique hb'
      obtain ⟨rfl, rfl⟩ := ih hs'
      exact ⟨rfl, rfl⟩

end

theorem emittedFor_cons (cfg : Cfg) (o : Origin) (os : List Origin) (p : Payload) (ps : List Payload) :
    emittedFor cfg (o :: os) (p :: ps) = emitted cfg o p ++ emittedFor cfg os ps := by
  cases hgate : passesGate cfg p <;> simp [emittedFor, emitted, complete, hgate]

/-- A run that takes only bytes of one direction does what the bank of that direction makes of them. -/
theorem TakesBytes.run {s : State} {d : Dir} {os : List Origin} {bs : List Byte} {rest : List InEvent} {bk' : Bank}
    {ps : List Payload} (h : TakesBytes s.cfg.lenMode (s.bank d) bs bk' ps) (hlen : os.length = bs.length)
    (hdir : ∀ o ∈ os, o.dir = d) (hin : s.input = byteEvents os bs ++ rest) :
    ∃ t, runSteps bs.length s = .next t ∧ t.bank d = bk' ∧ t.bank d.other = s.bank d.other ∧ t.cfg = s.cfg ∧
      t.input = rest ∧ t.output = s.output ++ emittedFor s.cfg os ps := by
  induction bs generalizing s os ps with
  | nil =>
    obtain rfl := List.length_eq_zero_iff.mp hlen
    cases h
    exact ⟨s, rfl, rfl, rfl, rfl, hin, by simp [emittedFor]⟩
  | cons b bs ih =>
    match os, hlen with
    | o :: os, hlen =>
    cases h with
    | cons hb hs =>
    obtain ⟨rfl, hdir'⟩ := List.forall_mem_cons.mp hdir
    obtain ⟨u, hstep⟩ := exists_step s
    obtain ⟨p, htakes, hother, hcfg, hrest, hout⟩ := step_byte hin hstep
    obtain ⟨rfl, rfl⟩ := htakes.unique hb
    rw [← hcfg] at hs
    obtain ⟨t, hrun, hbank', hother', hcfg', hrest', hout'⟩ := ih hs (Nat.succ.inj hlen) hdir' hrest
    refine ⟨t, (runSteps_succ hstep _).trans hrun, hbank', hother'.trans hother, hcfg'.trans hcfg, hrest', ?_⟩
    rw [hout', hout, hcfg, emittedFor_cons, List.append_assoc]

end Sys2Proof.Machine

namespace Sys2Proof

/-! ## Isolation of the directions -/

/-- The byte of an event, if it carries one. -/
def InEvent.byte? : InEvent → Option Byte
  | .byte _ b => some b
  | .other _ => none

/-- The direction and positions of an event. -/
def InEvent.origin : InEvent → Origin
  | .byte o _ => o
  | .other o => o

theorem bytesOf_other (d : Dir) (o : Origin) (evs : List InEvent) : bytesOf d (.other o :: evs) = bytesOf d evs := rfl

theorem bytesOf_byte_same (o : Origin) (b : Byte) (evs : List InEvent) :
    bytesOf o.dir (.byte o b :: evs) = .byte o b :: bytesOf o.dir evs := by
  simp [bytesOf, InEvent.isByteOf]

theorem bytesOf_byte_ne {d : Dir} {o : Origin} (hd : d ≠ o.dir) (b : Byte) (evs : List InEvent) :
    bytesOf d (.byte o b :: evs) = bytesOf d evs := by
  simp [bytesOf, InEvent.isByteOf, hd.symm]

theorem outputsOf_append (d : Dir) (evs evs' : List OutEvent) :
    outputsOf d (evs ++ evs') = outputsOf d evs ++ outputsOf d evs' := List.filter_append _ _

end Sys2Proof

namespace Sys2Proof.Machine

/-- An event that is added has the direction of its byte. -/
theorem outputsOf_emitted (d : Dir) (cfg : Cfg) (o : Origin) (p : Payload) :
    outputsOf d (emitted cfg o p) = if d = o.dir then emitted cfg o p else [] := by
  cases hgate : passesGate cfg p <;> by_cases hd : d = o.dir <;>
    simp [outputsOf, emitted, complete, hgate, hd, eq_comm]

/-- In the run over a whole input, each direction does what its bank makes of its own bytes, whatever comes between. -/
theorem run_takesBytes (d : Dir) {s t : State} (hrun : runSteps s.input.length s = .next t) :
    ∃ ps, TakesBytes s.cfg.lenMode (s.bank d) ((bytesOf d s.input).filterMap InEvent.byte?) (t.bank d) ps ∧
      outputsOf d t.output =
        outputsOf d s.output ++ emittedFor s.cfg ((bytesOf d s.input).map InEvent.origin) ps := by
  generalize hin : s.input = evs at *
  induction evs generalizing s with
  | nil =>
    obtain rfl := Host.Outcome.next.inj hrun
    exact ⟨[], .nil, by simp [emittedFor]⟩
  | cons ev evs ih =>
    obtain ⟨u, hstep⟩ := exists_step s
    replace hrun := (runSteps_succ hstep evs.length).symm.trans hrun
    cases ev with
    | other o =>
      rw [step_other hin] at hstep
      obtain rfl := Host.Outcome.next.inj hstep
      simpa [bytesOf_other] using ih rfl hrun
    | byte o b =>
      obtain ⟨p, htakes, hother, hcfg, hrest, hout⟩ := step_byte hin hstep
      obtain ⟨ps, hs, hout'⟩ := ih hrest hrun
      rw [hcfg] at hs hout'
      rw [hout, outputsOf_append, outputsOf_emitted] at hout'
      by_cases hd : d = o.dir
      · subst hd
        refine ⟨p :: ps, ?_, ?_⟩
        · rw [bytesOf_byte_same]; exact .cons htakes hs
        · rw [if_pos rfl, List.append_assoc] at hout'
          rw [bytesOf_byte_same, List.map_cons, InEvent.origin, emittedFor_cons]; exact hout'
      · rw [Dir.eq_other_of_ne hd, hother, ← Dir.eq_other_of_ne hd] at hs
        rw [if_neg hd, List.append_nil] at hout'
        rw [bytesOf_byte_ne hd]
        exact ⟨ps, hs, hout'⟩

/-- Settles O37: by `run_takesBytes` both runs give what the same bank makes of the same bytes, and that is
determined. -/
theorem directionsAreIsolated : Obligations.DirectionsAreIsolated := by
  intro d s s' t t' evs evs' hcfg hbank hbytes hrun hrun' hout hout'
  obtain ⟨ps, hs, hadded⟩ := run_takesBytes d hrun
  obtain ⟨ps', hs', hadded'⟩ := run_takesBytes d hrun'
  rw [← hcfg, ← hbank, ← hbytes] at hs'
  obtain ⟨hbank', rfl⟩ := hs.unique hs'
  rw [hout, outputsOf_append] at hadded
  rw [hout', outputsOf_append, ← hcfg, ← hbytes] at hadded'
  exact ⟨hbank', (List.append_cancel_left hadded).trans (List.append_cancel_left hadded').symm⟩

end Sys2Proof.Machine
end

section
/-! SUPPORT. Scanning, lengths, payloads and whole frames: each is a list of bytes that a bank takes, put together from
parts (95_test_vectors.md S2, S4, S5; 30_encoding.md section 5). -/

namespace Sys2Proof.Machine

variable {m : LenMode} {bk : Bank}

/-! ## Scanning for a flag -/

/-- In OPEN with reset fields, bytes other than the flag change nothing and are each reported. -/
theorem takesBytes_scan {bs : List Byte} (hbs : ∀ b ∈ bs, b ≠ flagByte) :
    TakesBytes m openBank bs openBank (bs.map .resync) := by
  induction bs with
  | nil => exact .nil
  | cons b bs ih =>
    obtain ⟨hb, hbs'⟩ := List.forall_mem_cons.mp hbs
    exact .cons (.openResync rfl hb) (ih hbs')

/-- Settles O41: the run of the bytes that `takesBytes_scan` takes. -/
theorem scanningForAFlagStaysInOpen : Obligations.ScanningForAFlagStaysInOpen := by
  intro s os bs rest d hbank hbs hlen hdir hin
  have hscan : TakesBytes s.cfg.lenMode (s.bank d) bs (s.bank d) (bs.map .resync) := by
    rw [hbank]; exact takesBytes_scan hbs
  exact hscan.run hlen hdir hin

/-! ## The payload -/

/-- In DATA, exactly as many bytes as the bank counts are its payload; the count stops at 1. -/
theorem takesBytes_payload {bs : List Byte} (hp : bk.phase = .data) (hlen : bs.length = bk.remainingLength.toNat)
    (hne : bs ≠ []) :
    TakesBytes m bk bs { bk with remainingLength := 1, phase := .fcs } (bs.map (.dataByte bk.dlc)) := by
  induction bs generalizing bk with
  | nil => exact absurd rfl hne
  | cons b bs ih =>
    rw [List.length_cons] at hlen
    match bs with
    | [] =>
      have hone : bk.remainingLength = 1 := BitVec.eq_of_toNat_eq hlen.symm
      rw [← hone]
      exact .cons (.dataLast hp hlen.ge) .nil
    | b' :: bs =>
      have hmore : 1 < bk.remainingLength.toNat := by rw [← hlen, List.length_cons]; omega
      have hdec := toNat_sub_one_add_one hmore.le
      exact .cons (.dataMore hp hmore) (ih hp (by simp only; omega) (List.cons_ne_nil b' bs))

theorem payloadStream_append (k : Nat) (evs evs' : List OutEvent) :
    payloadStream k (evs ++ evs') = payloadStream k evs ++ payloadStream k evs' := by
  induction evs with
  | nil => rfl
  | cons ev evs ih =>
    obtain ⟨o, key, p⟩ := ev
    cases p with
    | dataByte dlc v => by_cases hk : key = k <;> simp [payloadStream, hk, ih]
    | _ => exact ih

/-- The events of a payload go to the stream of their key, in order, and to no other. -/
theorem payloadStream_dataBytes (k : Nat) (cfg : Cfg) {d : Dir} (dlc : BitVec 6) {os : List Origin} {bs : List Byte}
    (hlen : os.length = bs.length) (hdir : ∀ o ∈ os, o.dir = d) :
    payloadStream k (emittedFor cfg os (bs.map (.dataByte dlc))) = if k = dataKey d dlc then bs else [] := by
  induction bs generalizing os with
  | nil => simp [emittedFor, payloadStream]
  | cons b bs ih =>
    match os, hlen with
    | o :: os, hlen =>
    obtain ⟨rfl, hdir'⟩ := List.forall_mem_cons.mp hdir
    rw [List.map_cons, emittedFor_cons, emitted_dataByte, List.singleton_append, payloadStream,
      ih (Nat.succ.inj hlen) hdir']
    by_cases hk : k = dataKey o.dir dlc <;> simp [hk, eq_comm]

/-- Settles O28: the run of the bytes that `takesBytes_payload` takes, whose events `payloadStream_dataBytes` sorts by
key. -/
theorem payloadReachesItsStreamAndNoOther : Obligations.PayloadReachesItsStreamAndNoOther := by
  intro s os bs rest d hp hcount hne hlen hdir hin
  obtain ⟨t, hrun, hbank, -, -, hrest, hout⟩ := (takesBytes_payload hp hcount hne).run hlen hdir hin
  refine ⟨t, hrun, by rw [hbank], hrest, ?_, fun k hk => ?_⟩
  · rw [hout, payloadStream_append, payloadStream_dataBytes _ _ _ hlen hdir, if_pos rfl]
  · rw [hout, payloadStream_append, payloadStream_dataBytes _ _ _ hlen hdir, if_neg hk, List.append_nil]

/-! ## Parts of a frame -/

/-- The flag, the address and a recognised control byte bring a bank from OPEN to LEN. -/
theorem takesBytes_header (hp : bk.phase = .opening) (a : Byte) {c : Byte} {ft : FrameType}
    (hc : ctlDecode c = some ft) :
    TakesBytes m bk [flagByte, a, c] { bk with dlc := dlcField a, frameType := ft, phase := .len }
      [.openFlag, .addressByte (dlcField a), .controlByte ft] :=
  .cons (.openFlag hp rfl) (.cons (.addr rfl) (.cons (.recognised rfl hc) .nil))

/-- The checksum and the flag bring a bank from FCS back to OPEN. -/
theorem takesBytes_trailer (hp : bk.phase = .fcs) (b : Byte) :
    TakesBytes m bk [b, flagByte] openBank [.checksum b, .closeFlag] :=
  .cons (.fcs hp) (.cons (.closeFlag rfl rfl) .nil)

/-- A bank that has entered the body with a length takes a payload of that length, empty or not, and the trailer. -/
theorem takesBytes_body {payload : List Byte} {len : BitVec 15} (hlen : payload.length = len.toNat) (fcs : Byte) :
    TakesBytes m (bodyBank len bk) (payload ++ [fcs, flagByte]) openBank
      (payload.map (.dataByte bk.dlc) ++ [.checksum fcs, .closeFlag]) := by
  by_cases hzero : len = 0
  · have hnil : payload = [] := List.length_eq_zero_iff.mp (by simpa [hzero] using hlen)
    subst hnil
    exact takesBytes_trailer (if_pos hzero) fcs
  · have hne : payload ≠ [] := fun h => hzero (BitVec.eq_of_toNat_eq (by simpa [h] using hlen.symm))
    exact (takesBytes_payload (if_neg hzero) hlen hne).append (takesBytes_trailer rfl fcs)

theorem dlcField_eq_ofNat (a : Byte) : dlcField a = BitVec.ofNat 6 (a.toNat / 4) := by
  rw [← dlcField_toNat, BitVec.ofNat_toNat, BitVec.setWidth_eq]

/-! ## A frame with a one-byte length -/

theorem toNat_shortLengthByte {n : Nat} (hn : n ≤ 127) : (BitVec.ofNat 8 (2 * n + 1)).toNat = 2 * n + 1 := by
  rw [BitVec.toNat_ofNat, Nat.mod_eq_of_lt (by omega)]

/-- The length byte of R57 is read back as the length. -/
theorem shortLength_shortLengthByte {n : Nat} (hn : n ≤ 127) :
    shortLength (shortField (BitVec.ofNat 8 (2 * n + 1))) = BitVec.ofNat 15 n := by
  apply BitVec.eq_of_toNat_eq
  rw [shortLength_toNat, shortField_toNat, toNat_shortLengthByte hn, BitVec.toNat_ofNat]
  omega

theorem takesBytes_shortFrame (hp : bk.phase = .opening) (a : Byte) {c : Byte} {ft : FrameType}
    (hc : ctlDecode c = some ft) {payload : List Byte} (hn : payload.length ≤ 127) (fcs : Byte) :
    TakesBytes m bk (shortFrame a c payload fcs) openBank (shortFrameReports a ft payload fcs) := by
  have hodd : (BitVec.ofNat 8 (2 * payload.length + 1)).toNat % 2 = 1 := by rw [toNat_shortLengthByte hn]; omega
  have hcount : payload.length = (BitVec.ofNat 15 payload.length).toNat := by rw [BitVec.toNat_ofNat]; omega
  have hframe := (takesBytes_header (m := m) hp a hc).append (.cons (.wholeLength rfl (.inr hodd))
    (takesBytes_body (by rwa [shortLength_shortLengthByte hn]) fcs))
  rw [shortLength_shortLengthByte hn, dlcField_eq_ofNat] at hframe
  simpa [shortFrame, shortFrameReports] using hframe

/-- Settles O42: the run of the frame that `takesBytes_shortFrame` takes. -/
theorem oneByteLengthFrameIsReportedWhole : Obligations.OneByteLengthFrameIsReportedWhole := by
  intro s d a c ft payload fcs os rest hp hc hn hlen hdir hin
  have hbytes : os.length = (shortFrame a c payload fcs).length := by simp [shortFrame]; omega
  rw [hbytes]
  exact (takesBytes_shortFrame hp a hc hn fcs).run hbytes hdir hin

/-! ## A frame with a two-byte length -/

/-- Two length bytes, the first with bit 0 clear, bring a bank from LEN under EXTENDED_B into the body. -/
theorem takesBytes_twoLengthBytes (hp : bk.phase = .len) {b₁ : Byte} (heven : b₁.toNat % 2 = 0) (b₂ : Byte) :
    TakesBytes .extendedB bk [b₁, b₂]
      (bodyBank (extendedLength b₂ (shortField b₁)) { bk with partialLengthLow := shortField b₁, phase := .len2 })
      [.length (partialLengthValue (shortField b₁)) true, .length (extendedLength b₂ (shortField b₁)) false] :=
  .cons (.lowPart hp rfl heven) (.cons (.highPart rfl) .nil)

/-- Settles O44: the run of the two bytes that `takesBytes_twoLengthBytes` takes. -/
theorem twoLengthBytesCombineLowPartFirst : Obligations.TwoLengthBytesCombineLowPartFirst := by
  intro s o₁ o₂ b₁ b₂ rest hin hdir hp hmode heven
  have htakes := takesBytes_twoLengthBytes hp heven b₂
  rw [← hmode] at htakes
  obtain ⟨t, hrun, hbank, -⟩ := htakes.run (os := [o₁, o₂]) rfl (by simp [hdir]) hin
  refine ⟨t, hrun, ?_⟩
  rw [hbank, ← shortField_toNat]
  exact extendedLength_toNat b₂ (shortField b₁)

theorem toNat_lowLengthByte (n : Nat) : (BitVec.ofNat 8 (2 * (n % 128))).toNat = 2 * (n % 128) := by
  rw [BitVec.toNat_ofNat, Nat.mod_eq_of_lt (by omega)]

/-- The two length bytes of R39 are read back as the length. -/
theorem extendedLength_lengthBytes {n : Nat} (hn : n ≤ 32767) :
    extendedLength (BitVec.ofNat 8 (n / 128)) (shortField (BitVec.ofNat 8 (2 * (n % 128)))) = BitVec.ofNat 15 n := by
  apply BitVec.eq_of_toNat_eq
  rw [extendedLength_toNat, shortField_toNat, toNat_lowLengthByte, BitVec.toNat_ofNat, BitVec.toNat_ofNat]
  omega

theorem takesBytes_longFrame (hp : bk.phase = .opening) (a : Byte) {c : Byte} {ft : FrameType}
    (hc : ctlDecode c = some ft) {payload : List Byte} (hn : payload.length ≤ 32767) (fcs : Byte) :
    ∃ low, TakesBytes .extendedB bk (longFrame a c payload fcs) openBank (longFrameReports a ft payload fcs low) := by
  have heven : (BitVec.ofNat 8 (2 * (payload.length % 128))).toNat % 2 = 0 := by rw [toNat_lowLengthByte]; omega
  have hcount : payload.length = (BitVec.ofNat 15 payload.length).toNat := by rw [BitVec.toNat_ofNat]; omega
  have hframe := ((takesBytes_header hp a hc).append (takesBytes_twoLengthBytes rfl heven _)).append
    (takesBytes_body (by rwa [extendedLength_lengthBytes hn]) fcs)
  rw [extendedLength_lengthBytes hn, dlcField_eq_ofNat] at hframe
  exact ⟨_, by simpa [longFrame, longFrameReports] using hframe⟩

/-- Settles O43: the run of the frame that `takesBytes_longFrame` takes. -/
theorem twoByteLengthFrameIsReportedWhole : Obligations.TwoByteLengthFrameIsReportedWhole := by
  intro s d a c ft payload fcs os rest hp hmode hc hn hlen hdir hin
  have hbytes : os.length = (longFrame a c payload fcs).length := by simp [longFrame]; omega
  obtain ⟨low, hframe⟩ := takesBytes_longFrame hp a hc hn fcs
  rw [← hmode] at hframe
  obtain ⟨t, heffect⟩ := hframe.run hbytes hdir hin
  exact ⟨t, low, hbytes ▸ heffect⟩

end Sys2Proof.Machine
end

section
/-! SUPPORT. Reset and the configuration: what the host's reset can answer, said once, and the 5-bit layout of `CFG`
(10_state.md sections 4 and 6, 70_reset_and_hazards.md section 1). -/

namespace Sys2Proof.Machine

/-! ## The codes of CFG -/

/-- The reserved codes of `format` are 5, 6 and 7 (R27). -/
theorem formatOfCode_eq_none_iff : ∀ c : BitVec 3, formatOfCode c = none ↔ 5 ≤ c.toNat := by decide

theorem toNat_le_of_formatOfCode {c : BitVec 3} {f : Format} (hc : formatOfCode c = some f) : c.toNat ≤ 4 := by
  have hlegal : ¬5 ≤ c.toNat := by rw [← formatOfCode_eq_none_iff, hc]; nofun
  omega

theorem formatCode_of_formatOfCode (f : Format) : ∀ c : BitVec 3, formatOfCode c = some f → formatCode f = c := by
  cases f <;> decide

@[simp] theorem lenModeBit_lenModeOfBit (b : Bool) : lenModeBit (lenModeOfBit b) = b := by cases b <;> rfl

/-- `CFG` after a reset in which the host wrote `w`, with the format `f`. -/
def CfgWrite.cfgWith (w : CfgWrite) (f : Format) : Cfg :=
  ⟨(w.debug).getD false, f, (w.lenMode.map lenModeOfBit).getD .extendedB⟩

/-- What a write to `CFG` can be: `format` left unwritten, written with the code of a format, or with a reserved
code. -/
theorem CfgWrite.value_cases (w : CfgWrite) :
    (w.format = none ∧ w.value = .ok (w.cfgWith .hex)) ∨
    (∃ c f, w.format = some c ∧ formatOfCode c = some f ∧ w.value = .ok (w.cfgWith f)) ∨
    ∃ c, w.format = some c ∧ formatOfCode c = none ∧ w.value = .error c := by
  unfold CfgWrite.value
  cases hw : w.format with
  | none => exact .inl ⟨rfl, rfl⟩
  | some c =>
    cases hc : formatOfCode c with
    | some f => exact .inr (.inl ⟨c, f, rfl, hc, by simp only [hc]; rfl⟩)
    | none => exact .inr (.inr ⟨c, rfl, hc, by simp only [hc]⟩)

/-! ## The reset by the host -/

/-- The state after a reset that sets `CFG`: both banks in OPEN with reset fields, the ports as they were. -/
def afterReset (cfg : Cfg) (s : State) : State := ⟨openBank, openBank, cfg, s.input, s.output⟩

@[simp] theorem afterReset_bank (cfg : Cfg) (s : State) (d : Dir) : (afterReset cfg s).bank d = openBank := by
  cases d <;> rfl

/-- A write of `CFG` that is accepted completes the reset. -/
theorem hostReset_of_ok {w : CfgWrite} {cfg : Cfg} (h : w.value = .ok cfg) (s : State) :
    hostReset w s = .next (afterReset cfg s) := by
  rw [hostReset, h]; rfl

/-- A write of `CFG` that is refused refuses the reset. -/
theorem hostReset_of_error {w : CfgWrite} {c : BitVec 3} (h : w.value = .error c) (s : State) :
    hostReset w s = .refused (.reservedFormat c) := by
  rw [hostReset, h]

/-- A reset that answers next leaves the state of `afterReset`, with the default format or the one written. -/
theorem hostReset_eq_next {w : CfgWrite} {s t : State} (h : hostReset w s = .next t) :
    ∃ f, t = afterReset (w.cfgWith f) s ∧ (w.format = none → f = .hex) ∧
      ∀ c, w.format = some c → formatOfCode c = some f := by
  rcases w.value_cases with ⟨hw, hv⟩ | ⟨c, f, hw, hc, hv⟩ | ⟨c, hw, hc, hv⟩
  · rw [hostReset_of_ok hv] at h
    exact ⟨.hex, (Host.Outcome.next.inj h).symm, fun _ => rfl, by simp [hw]⟩
  · rw [hostReset_of_ok hv] at h
    exact ⟨f, (Host.Outcome.next.inj h).symm, by simp [hw], by simp [hw, hc]⟩
  · rw [hostReset_of_error hv] at h
    cases h

/-- Settles O34: every step answers next, so every run does, and a reset is refused just where the code written to
`format` names none. -/
theorem everyInputHasADefinedOutcome : Obligations.EveryInputHasADefinedOutcome := by
  refine ⟨exists_runSteps, fun w s => ?_⟩
  rcases w.value_cases with ⟨hw, hv⟩ | ⟨c, f, hw, hc, hv⟩ | ⟨c, hw, hc, hv⟩
  · simp [hostReset_of_ok hv, hw]
  · have hlegal : c.toNat ≤ 4 ∧ c.toNat < 5 := by have hle := toNat_le_of_formatOfCode hc; omega
    simpa [hostReset_of_ok hv, hw] using hlegal
  · have hreserved : 4 < c.toNat ∧ 5 ≤ c.toNat := by have hle := (formatOfCode_eq_none_iff c).mp hc; omega
    simpa [hostReset_of_error hv, hw] using hreserved

/-- Settles O30: every bank is then in OPEN with reset fields, which meets the invariant under either length mode. -/
theorem bankInvariantHoldsAfterReset : Obligations.BankInvariantHoldsAfterReset := by
  refine ⟨fun d => by cases d <;> exact openBank_inv _, fun w s t h d => ?_⟩
  obtain ⟨f, rfl, -⟩ := hostReset_eq_next h
  rw [afterReset_bank]
  exact openBank_inv _

/-- Settles O32: the output is empty after reset, and the host's reset keeps the output. -/
theorem outputIsWellFormedAfterReset : Obligations.OutputIsWellFormedAfterReset := by
  refine ⟨nofun, fun w s t h => ?_⟩
  obtain ⟨f, rfl, -⟩ := hostReset_eq_next h
  rfl

/-- Settles O45: both banks are the reset bank, and each other field has its value by definition. -/
theorem resetLeavesBothBanksOpen : Obligations.ResetLeavesBothBanksOpen :=
  ⟨fun d => by cases d <;> rfl, rfl, rfl, rfl⟩

/-- The formats by their codes (R27, decision D4). -/
theorem formatOfCode_table (f : Format) : ∀ c : BitVec 3, formatOfCode c = some f →
    (c.toNat, f) ∈ [(0, Format.ascii), (1, .dec), (2, .hex), (3, .oct), (4, .bin)] := by
  cases f <;> decide

/-- Settles O46: each part of `afterReset`, with the format that `hostReset_eq_next` gives. -/
theorem hostResetDropsFramesSilently : Obligations.HostResetDropsFramesSilently := by
  intro w s t h
  obtain ⟨f, rfl, hdefault, hwritten⟩ := hostReset_eq_next h
  refine ⟨fun d => afterReset_bank _ s d, rfl, rfl, rfl, hdefault,
    fun c hc => formatOfCode_table f c (hwritten c hc), ?_⟩
  simp only [afterReset, CfgWrite.cfgWith]
  rcases w.lenMode with _ | _ | _ <;> simp [lenModeOfBit]

/-! ## The 5-bit layout of CFG -/

/-- The five bits are `len_mode`, the three bits of `format`, and `debug`. -/
theorem bits_eq_append : ∀ v : BitVec 5,
    BitVec.ofBool (v.getLsbD 4) ++ v.extractLsb' 1 3 ++ BitVec.ofBool (v.getLsbD 0) = v := by decide

theorem formatField_toNat : ∀ v : BitVec 5, (v.extractLsb' 1 3).toNat = v.toNat / 2 % 8 := by decide

theorem debugBit_iff : ∀ v : BitVec 5, v.getLsbD 0 = true ↔ v.toNat % 2 = 1 := by decide

theorem lenModeOfBit_iff : ∀ v : BitVec 5, lenModeOfBit (v.getLsbD 4) = .extendedB ↔ 16 ≤ v.toNat := by decide

/-- Settles O47: bits 3 to 1 are the code that a write of all of `CFG` writes to `format`, so they decide whether it is
accepted, and an accepted one keeps the three fields that the bits are made of. -/
theorem configurationHasTheFiveBitLayout : Obligations.ConfigurationHasTheFiveBitLayout := by
  refine ⟨fun v => ?_, rfl⟩
  rw [← formatField_toNat]
  rcases (CfgWrite.ofBits v).value_cases with ⟨hw, -⟩ | ⟨c, f, hw, hc, hv⟩ | ⟨c, hw, hc, hv⟩
  · cases hw
  · obtain rfl := Option.some.inj hw
    have hlegal := toNat_le_of_formatOfCode hc
    refine ⟨fun _ => ⟨_, hv, ?_, debugBit_iff v, lenModeOfBit_iff v⟩, fun hreserved => by omega⟩
    rw [cfgBits, CfgWrite.cfgWith, formatCode_of_formatOfCode f _ hc]
    exact (congrArg (BitVec.ofBool · ++ _ ++ _) (lenModeBit_lenModeOfBit _)).trans (bits_eq_append v)
  · obtain rfl := Option.some.inj hw
    have hreserved := (formatOfCode_eq_none_iff _).mp hc
    exact ⟨fun hlegal => by omega, fun _ => ⟨_, hv, rfl⟩⟩

end Sys2Proof.Machine
end
